-- ==== Sys2Proof/Word.lean ====
section
/-! DEFINITION. The word types of the frame parser (`00_scope.md` rules R8, R10, R11). -/

namespace Sys2Proof

/-- A RawWord, and the command word: 32 bits (R8 `WORD_BITS`, R40, R60). -/
abbrev Word := BitVec 32

/-- One byte of an input block (R41). -/
abbrev Byte := BitVec 8

/-- An acquisition-mode value, `ACQ_MODE_BITS` = 8 bits (R8, R24, R60). -/
abbrev ModeByte := BitVec 8

/-- A picosecond value as it leaves the block: 64 bits, unsigned (R11). -/
abbrev Picos := BitVec 64

/-- A value the block only copies and never interprets: a tag's key or value (R31, R138), the
sensor-type identifiers and the detector-type label (R9). Held as a string of bytes (log entry 4). -/
abbrev Label := List Byte

end Sys2Proof
end

