-- ==== Sys2Proof/Syntax.lean ====
section
/-! DEFINITION. The operation set (one constructor per row of `spec/opcode_table.json`) and the plain data
that operands, responses, events and diagnostic records are made of (`10_state.md` rules R26 to R33,
`60_exceptions.md` rules R147 to R151 and R160). -/

namespace Sys2Proof

/-- The operations of R63, in the table's order. Operands travel beside the command word (R61), so only
CFG_ACQ_MODE, whose operand is the command's MODE field (R64), carries one. -/
inductive Instr where
  /-- HDR (R96). -/
  | hdr
  /-- FRAME.TOT (R107). -/
  | frameTot
  /-- FRAME.TOA (R108). -/
  | frameToa
  /-- ACCEPT (R116). -/
  | accept
  /-- TS_FRAME (R119). -/
  | tsFrame
  /-- TS_HIT.TOT (R120). -/
  | tsHitTot
  /-- TS_HIT.TOA (R121). -/
  | tsHitToa
  /-- FILTER (R126). -/
  | filter
  /-- CONVERT (R133). -/
  | convert
  /-- REC_VALUE (R86). -/
  | recValue
  /-- REC_MODE (R87). -/
  | recMode
  /-- REC_ARRIVAL (R88). -/
  | recArrival
  /-- CFG_PLANE_ID (R141). -/
  | cfgPlaneId
  /-- CFG_ACQ_MODE (R142), with the value of the MODE field. -/
  | cfgAcqMode (v : ModeByte)
  deriving DecidableEq, Repr

/-- The two acquisition modes that decode (R65): 0x00 and 0x01. -/
inductive AcqMode where
  /-- 0x00, ToT-only. -/
  | totOnly
  /-- 0x01, ToT+ToA. -/
  | totToa
  deriving DecidableEq, Repr

/-- FrameHeader (R27). The numeric fields' widths are parameters (R9), so each is a natural that
`FrameHeader.fits` bounds by its field map's width. -/
structure FrameHeader where
  triggerTimestamp : Nat
  shutterOpen : Nat
  shutterClose : Nat
  frameId : Nat
  length : Nat
  t0Flag : Bool
  deriving DecidableEq, Repr, Inhabited

/-- PixelAddress: a pair of naturals (R28). -/
structure PixelAddress where
  col : Nat
  row : Nat
  deriving DecidableEq, Repr, Inhabited

/-- PixelRecord (R29): a variant tagged by the acquisition mode it was decoded under. -/
inductive PixelRecord where
  /-- `ToT{addr, tot}`, mode tag 0x00. -/
  | tot (addr : PixelAddress) (magnitude : Nat)
  /-- `ToA{addr, tot, arrival}`, mode tag 0x01. -/
  | toa (addr : PixelAddress) (magnitude : Nat) (arrivalTicks : Nat)
  deriving DecidableEq, Repr, Inhabited

/-- The raw record of one payload unit (R30): the same fields as a PixelRecord, its address not yet checked. -/
abbrev RawRec := PixelRecord

/-- Hit entry (R33). -/
structure Hit where
  col : BitVec 6
  row : BitVec 4
  tot : Nat
  timestampPs : Picos
  deriving DecidableEq, Repr, Inhabited

/-- A key/value tag, opaque to the block (R31). -/
abbrev Tag := Label × Label

/-- Input event, the CONVERT operand (R31). -/
structure InEvent where
  blocks : List (List Byte)
  tags : List Tag
  deriving DecidableEq, Repr, Inhabited

/-- The plane record of an output event (R32). -/
structure Plane where
  planeId : BitVec 32
  sensorType : Label
  cols : Nat
  rows : Nat
  hits : List Hit
  deriving DecidableEq, Repr, Inhabited

/-- Output event (R32, R137). -/
structure OutEvent where
  plane : Plane
  frameStartPs : Picos
  frameEndPs : Picos
  sequenceNumber : BitVec 64
  detectorType : Label
  tags : List Tag
  deriving DecidableEq, Repr, Inhabited

/-- The verdict ACCEPT returns (R116). -/
inductive Verdict where
  | accepted
  | rejectNotSynced
  | rejectShutterOrder
  deriving DecidableEq, Repr

/-- The reason sub-code of `SKIP_MALFORMED` (R148). -/
inductive MalformedReason where
  | blockCount
  | byteLength
  | truncatedHeader
  deriving DecidableEq, Repr

/-- The recoverable not-converted outcomes of CONVERT (R147), each with its info (R151). -/
inductive Skip where
  /-- `SKIP_MALFORMED {reason, count}`. -/
  | malformed (reason : MalformedReason) (count : Nat)
  /-- `SKIP_NOT_SYNCED {frame_id}`. -/
  | notSynced (frameId : Nat)
  /-- `SKIP_SHUTTER_ORDER {open, close}`. -/
  | shutterOrder (openTick closeTick : Nat)
  deriving DecidableEq, Repr

/-- The field named by `ERR_FIELD_ACCESS` (R151). -/
inductive RecordField where
  | arrival
  deriving DecidableEq, Repr

/-- The hard errors (R147), each with its info (R151). -/
inductive HardError where
  /-- `ERR_ILLEGAL_COMMAND {cmd}`. -/
  | illegalCommand (cmd : Word)
  /-- `ERR_UNSUPPORTED_MODE {mode}`. -/
  | unsupportedMode (mode : ModeByte)
  /-- `ERR_HEADER_TRUNCATED {len}`. -/
  | headerTruncated (len : Nat)
  /-- `ERR_PAYLOAD_LENGTH {len, unit, mode}`. -/
  | payloadLength (len unitWords : Nat) (mode : ModeByte)
  /-- `ERR_ADDRESS_RANGE {unit, col, row}`. -/
  | addressRange (unitIndex col row : Nat)
  /-- `ERR_TIMESTAMP_RANGE {tick}`, of a TS_FRAME conversion. -/
  | timestampRangeTick (tick : Nat)
  /-- `ERR_TIMESTAMP_RANGE {end_ps, arrival}`, of a ToA hit. -/
  | timestampRangeHit (endPs : Picos) (arrivalTicks : Nat)
  /-- `ERR_FIELD_ACCESS {mode, field}`. -/
  | fieldAccess (mode : ModeByte) (field : RecordField)
  /-- `ERR_DECLARED_LENGTH {declared, actual}`. -/
  | declaredLength (declared actual : Nat)
  deriving DecidableEq, Repr

/-- What ends an operation early (R14): `skip S(info)` or `raise E(info)`. -/
inductive Stop where
  | skip (k : Skip)
  | hard (e : HardError)
  deriving DecidableEq, Repr

/-- The value of an operation that ends OK (R26), as each operation's rule states it. -/
inductive Result where
  /-- CFG_PLANE_ID and CFG_ACQ_MODE: `return none`. -/
  | noValue
  /-- HDR. -/
  | header (h : FrameHeader)
  /-- FRAME.TOT, FRAME.TOA and FILTER. -/
  | records (recs : List PixelRecord)
  /-- ACCEPT. -/
  | verdict (v : Verdict)
  /-- TS_FRAME: `(frame_start_ps, frame_end_ps)`. -/
  | frameTimes (startPs endPs : Picos)
  /-- TS_HIT.TOT and TS_HIT.TOA. -/
  | timestamp (ps : Picos)
  /-- REC_VALUE. -/
  | magnitude (v : Nat)
  /-- REC_MODE: 8 bits. -/
  | mode (m : ModeByte)
  /-- REC_ARRIVAL. -/
  | arrival (v : Nat)
  /-- CONVERT: CONVERTED. -/
  | converted
  deriving DecidableEq, Repr

/-- The response `{status, result, info}` (R26): the result stands only beside OK, the info only
beside a skip or a hard error. -/
inductive Response where
  | ok (result : Result)
  | skip (k : Skip)
  | error (e : HardError)
  deriving DecidableEq, Repr

/-- The outcome classes of R146. -/
inductive OutcomeClass where
  | ok
  | skip
  | hardError
  deriving DecidableEq, Repr

/-- The severity of a diagnostic record (R160). -/
inductive Severity where
  | warning
  | debug
  deriving DecidableEq, Repr

/-- The reason a diagnostic record names (R133, `diag(sev, code)`). -/
inductive DiagReason where
  | malformed (reason : MalformedReason)
  | notSynced
  | shutterOrder
  deriving DecidableEq, Repr

/-- A diagnostic record `{severity, code, reason}` (R160), its code the skip's status code (R147). -/
structure Diagnostic where
  severity : Severity
  code : BitVec 8
  reason : DiagReason
  deriving DecidableEq, Repr

/-- What leaves the block: an event to the sink, a record to the diagnostic port, or a response (R45, R26). -/
inductive Output where
  | event (ev : OutEvent)
  | diag (d : Diagnostic)
  | response (r : Response)
  deriving DecidableEq, Repr

/-- The operand port (R61): one typed port per operand name. An operation reads only the ports R61 gives it. -/
structure Operands where
  /-- HDR: the word buffer `words` (R40). -/
  words : List Word
  /-- FRAME.TOT, FRAME.TOA: the word buffer `payload`. -/
  payload : List Word
  /-- ACCEPT, TS_FRAME: `h`. -/
  h : FrameHeader
  /-- TS_HIT.TOT: `start_ps`. -/
  startPs : Picos
  /-- TS_HIT.TOT, TS_HIT.TOA: `end_ps`. -/
  endPs : Picos
  /-- TS_HIT.TOA: `arrival`, `W_ARR` bits. -/
  arrival : Nat
  /-- FILTER: `recs`. -/
  recs : List PixelRecord
  /-- CONVERT: `ev`. -/
  ev : InEvent
  /-- REC_VALUE, REC_MODE, REC_ARRIVAL: `r`. -/
  r : PixelRecord
  /-- CFG_PLANE_ID: `v`, 32 bits. -/
  v : BitVec 32
  deriving DecidableEq, Repr, Inhabited

/-- One request: a command word (R60) and the operands beside it (R61). -/
structure Request where
  cmd : Word
  operands : Operands
  deriving DecidableEq, Repr

/-- The working latches of R21. -/
structure Latches where
  /-- The header latch `H`. -/
  header : FrameHeader
  /-- The payload cursor `k` (R23). -/
  cursor : Nat
  /-- The record buffer `recs`. -/
  recs : List PixelRecord
  /-- The hit buffer `hits`. -/
  hits : List Hit
  /-- `frame_start_ps`. -/
  frameStartPs : Picos
  /-- `frame_end_ps`. -/
  frameEndPs : Picos
  deriving DecidableEq, Repr, Inhabited

end Sys2Proof
end

