-- ==== Sys2Proof/Config.lean ====
section
/-! DEFINITION. What an implementation fixes: the types of the named parameters of `00_scope.md` rule R9, the
fixed constants of rule R8, and the values the spec leaves open, each an opaque constant. -/

namespace Sys2Proof

/-- A slice `(w, hi, lo)` (R67): bits `hi` down to `lo` of word `w` of the unit being decoded. -/
structure Slice where
  word : Nat
  hi : Nat
  lo : Nat
  deriving DecidableEq, Repr

/-- A field map (R67): its slices, the first one most significant. -/
abbrev FieldMap := List Slice

/-- `P_HDR_LAYOUT` (R95): one field map for each header field. -/
structure HdrLayout where
  trig : FieldMap
  opening : FieldMap
  closing : FieldMap
  fid : FieldMap
  len : FieldMap
  t0 : FieldMap
  deriving DecidableEq, Repr

/-- The order of positional addressing (R73). -/
inductive PositionalOrder where
  /-- `COL_FASTEST`. -/
  | colFastest
  /-- `ROW_FASTEST`. -/
  | rowFastest
  deriving DecidableEq, Repr

/-- The address source of a unit (R73). -/
inductive AddrSource where
  /-- `Explicit(colMap, rowMap)`. -/
  | explicit (colMap rowMap : FieldMap)
  /-- `Positional(order)`. -/
  | positional (order : PositionalOrder)
  deriving DecidableEq, Repr

/-- The part of `P_PIX_LAYOUT[m]` both modes have (R104). The arrival map, which only mode 0x01 has, is
`Params.arrivalMap`. -/
structure UnitLayout where
  addr : AddrSource
  tot : FieldMap
  deriving DecidableEq, Repr

/-- `P_BYTE_ORDER` (R42). -/
inductive ByteOrder where
  | little
  | big
  deriving DecidableEq, Repr

/-- `P_TS_OVERFLOW` (R118). -/
inductive TsOverflow where
  | fault
  | wrap64
  deriving DecidableEq, Repr

/-- `P_LENGTH_CHECK` (R134). -/
inductive LengthCheck where
  | ignore
  | requireEqual
  deriving DecidableEq, Repr

/-- The parameters of one block (R9), fixed when it is constructed (R166). -/
structure Params where
  /-- `P_HDR_LAYOUT`. -/
  hdr : HdrLayout
  /-- `P_UNIT_WORDS[0x00]`. -/
  unitWordsTot : Nat
  /-- `P_UNIT_WORDS[0x01]`. -/
  unitWordsToa : Nat
  /-- `P_PIX_LAYOUT[0x00]`. -/
  unitTot : UnitLayout
  /-- `P_PIX_LAYOUT[0x01]`, its address source and tot map. -/
  unitToa : UnitLayout
  /-- `P_PIX_LAYOUT[0x01].arrival`. -/
  arrivalMap : FieldMap
  /-- `P_BYTE_ORDER`. -/
  byteOrder : ByteOrder
  /-- `P_TS_OVERFLOW`. -/
  tsOverflow : TsOverflow
  /-- `P_LENGTH_CHECK`. -/
  lengthCheck : LengthCheck
  /-- `P_SENSOR_TYPE`. -/
  sensorType : Label
  /-- `P_DETECTOR_TYPE`. -/
  detectorType : Label
  deriving DecidableEq, Repr

namespace Config

/-- `HEADER_WORDS` (R8). -/
abbrev headerWords : Nat := 6

/-- `COLS` (R8). -/
abbrev cols : Nat := 64

/-- `ROWS` (R8). -/
abbrev rows : Nat := 16

/-- `PS_PER_TICK` (R8, R117). -/
abbrev psPerTick : Nat := 10000

/-- `P_SENSOR_TYPE` of the block that `State.reset` constructs: OPEN (R9, D19), so a free value (log entry 5). -/
opaque sensorType : Label

/-- `P_DETECTOR_TYPE` of the block that `State.reset` constructs: OPEN (R9, D19), so a free value (log entry 5). -/
opaque detectorType : Label

/-- The working latches at the start of an operation are undefined (R21, U12): a free value for each
operation, by the number of operations begun before it (log entry 6). -/
opaque undefinedLatches : Nat → Latches

end Config

end Sys2Proof
end

