-- ==== Sys2Proof/Machine/Layout.lean ====
section
/-! DEFINITION. Data layouts: the value of a slice and of a field map (`30_encoding.md` rules R67 and R68), the
decoding of a header (R94, R96) and of one payload unit (R105), the encoders that write them back (R99), the
reference layouts (R69, R71, R72) and the parameter values the spec uses by default (R9). -/

namespace Sys2Proof

/-- The number of bits of a slice (R67): `hi - lo + 1`. -/
def Slice.width (s : Slice) : Nat := s.hi + 1 - s.lo

/-- `ws[w][hi:lo]` (R67, R12). A word the unit does not have reads 0: no layout that meets R95 and R104
names one. -/
def Slice.value (s : Slice) (ws : List Word) : Nat :=
  ((ws.getD s.word 0).toNat >>> s.lo) % 2 ^ s.width

/-- `width(fm)` (R67): the sum of the slices' widths. -/
def FieldMap.width : FieldMap → Nat
  | [] => 0
  | s :: rest => s.width + FieldMap.width rest

/-- `value(fm, ws)` (R67): the slices concatenated, the first one most significant. Unsigned (R68). -/
def FieldMap.value : FieldMap → List Word → Nat
  | [], _ => 0
  | s :: rest, ws => s.value ws * 2 ^ FieldMap.width rest + FieldMap.value rest ws

/-- What a slice adds to word `i` when its bits are written with `v`. -/
def Slice.place (s : Slice) (v i : Nat) : Nat :=
  if s.word = i then (v % 2 ^ s.width) <<< s.lo else 0

/-- What a field map adds to word `i` when `v` is written into its slices, the first slice taking the most
significant bits (R99). -/
def FieldMap.place : FieldMap → Nat → Nat → Nat
  | [], _, _ => 0
  | s :: rest, v, i => s.place (v >>> FieldMap.width rest) i ||| FieldMap.place rest v i

/-- The six header fields of six header words (R94, R96). -/
def HdrLayout.decode (L : HdrLayout) (ws : List Word) : FrameHeader where
  triggerTimestamp := L.trig.value ws
  shutterOpen := L.opening.value ws
  shutterClose := L.closing.value ws
  frameId := L.fid.value ws
  length := L.len.value ws
  t0Flag := L.t0.value ws == 1

/-- `enc(h)` of R99: each field written into its slices, every unassigned bit 0. -/
def HdrLayout.encode (L : HdrLayout) (h : FrameHeader) : List Word :=
  (List.range Config.headerWords).map fun i =>
    BitVec.ofNat 32 (L.trig.place h.triggerTimestamp i ||| L.opening.place h.shutterOpen i |||
      L.closing.place h.shutterClose i ||| L.fid.place h.frameId i ||| L.len.place h.length i |||
      L.t0.place h.t0Flag.toNat i)

/-- `P_UNIT_WORDS[m]` (R103). -/
def Params.unitWords (p : Params) : AcqMode → Nat
  | .totOnly => p.unitWordsTot
  | .totToa => p.unitWordsToa

/-- The address source and tot map of `P_PIX_LAYOUT[m]` (R104). -/
def Params.unitLayout (p : Params) : AcqMode → UnitLayout
  | .totOnly => p.unitTot
  | .totToa => p.unitToa

/-- The raw address of unit `k` with words `u` (R73, R105). -/
def AddrSource.address (a : AddrSource) (k : Nat) (u : List Word) : PixelAddress :=
  match a with
  | .explicit colMap rowMap => ⟨colMap.value u, rowMap.value u⟩
  | .positional .colFastest => ⟨k % Config.cols, k / Config.cols⟩
  | .positional .rowFastest => ⟨k / Config.rows, k % Config.rows⟩

/-- `decodeUnit(m, k, u)` (R105). -/
def Params.decodeUnit (p : Params) (m : AcqMode) (k : Nat) (u : List Word) : RawRec :=
  match m with
  | .totOnly => .tot (p.unitTot.addr.address k u) (p.unitTot.tot.value u)
  | .totToa => .toa (p.unitToa.addr.address k u) (p.unitToa.tot.value u) (p.arrivalMap.value u)

/-- What an address source adds to word `i` of a unit. A positional address is not stored in the unit. -/
def AddrSource.place (a : AddrSource) (addr : PixelAddress) (i : Nat) : Nat :=
  match a with
  | .explicit colMap rowMap => colMap.place addr.col i ||| rowMap.place addr.row i
  | .positional _ => 0

/-- Can unit `k` say the address `addr`? An explicit address must fit its field maps; a positional one is given by
`k` (R73, R104). -/
def AddrSource.stores (a : AddrSource) (k : Nat) (addr : PixelAddress) : Bool :=
  match a with
  | .explicit colMap rowMap => addr.col < 2 ^ colMap.width && addr.row < 2 ^ rowMap.width
  | .positional order => (AddrSource.positional order).address k [] == addr

/-- The unit that stores a record in mode `m`, every unassigned bit 0 (R74, the test encoder). A record of
the other variant stores what the mode's layout has of it. -/
def Params.encodeUnit (p : Params) (m : AcqMode) (addr : PixelAddress) (tot arrivalTicks : Nat) : List Word :=
  (List.range (p.unitWords m)).map fun i =>
    BitVec.ofNat 32 ((p.unitLayout m).addr.place addr i ||| (p.unitLayout m).tot.place tot i |||
      (match m with
        | .totOnly => 0
        | .totToa => p.arrivalMap.place arrivalTicks i))

/-- A field of one slice. -/
def oneSlice (word hi lo : Nat) : FieldMap := [⟨word, hi, lo⟩]

/-- The reference header layout (R69): this spec's own, not the device's. -/
def HdrLayout.reference : HdrLayout where
  trig := oneSlice 0 31 0
  opening := oneSlice 1 31 0
  closing := oneSlice 2 31 0
  fid := oneSlice 3 31 0
  len := oneSlice 4 31 0
  t0 := oneSlice 5 0 0

/-- The first word of the reference units, the same in both modes (R71, R72). -/
def UnitLayout.reference : UnitLayout where
  addr := .explicit (oneSlice 0 5 0) (oneSlice 0 9 6)
  tot := oneSlice 0 31 16

/-- The parameter values the spec uses by default (R9, 92 D3 to D8), with the two OPEN labels free (D19). -/
def Params.reference : Params where
  hdr := HdrLayout.reference
  unitWordsTot := 1
  unitWordsToa := 2
  unitTot := UnitLayout.reference
  unitToa := UnitLayout.reference
  arrivalMap := oneSlice 1 31 0
  byteOrder := .little
  tsOverflow := .fault
  lengthCheck := .ignore
  sensorType := Config.sensorType
  detectorType := Config.detectorType

end Sys2Proof
end

