-- ==== Sys2Proof/Machine/Record.lean ====
section
/-! DEFINITION. The pixel record model's projections (`40_record_model.md` rules R85 to R89) and the address
check of `10_state.md` rule R28. -/

namespace Sys2Proof

/-- `r.addr` (R89). -/
def PixelRecord.addr : PixelRecord → PixelAddress
  | .tot addr _ => addr
  | .toa addr _ _ => addr

/-- `r.tot`, the hit magnitude of either variant (R85, R86). -/
def PixelRecord.magnitude : PixelRecord → Nat
  | .tot _ v => v
  | .toa _ v _ => v

/-- `r.arrival`, which only the ToA variant has (R88, R89). -/
def PixelRecord.arrival? : PixelRecord → Option Nat
  | .tot _ _ => none
  | .toa _ _ arrivalTicks => some arrivalTicks

/-- The mode a record was decoded under (R85, R87). -/
def PixelRecord.acqMode : PixelRecord → AcqMode
  | .tot _ _ => .totOnly
  | .toa _ _ _ => .totToa

/-- The record of a mode (R29): only a ToA record has the arrival. -/
def AcqMode.record (m : AcqMode) (addr : PixelAddress) (tot arrivalTicks : Nat) : PixelRecord :=
  match m with
  | .totOnly => .tot addr tot
  | .totToa => .toa addr tot arrivalTicks

/-- The 8-bit value of a mode (R65): `MODE_TOT` or `MODE_TOA`. -/
def AcqMode.byte : AcqMode → ModeByte
  | .totOnly => 0x00
  | .totToa => 0x01

/-- The mode an 8-bit value stands for, if it is one of the two that decode (R65). -/
def AcqMode.ofByte? (m : ModeByte) : Option AcqMode :=
  if m = 0x00 then some .totOnly else if m = 0x01 then some .totToa else none

/-- `col < 64` and `row < 16` (R28). -/
def PixelAddress.valid (a : PixelAddress) : Bool := a.col < Config.cols && a.row < Config.rows

end Sys2Proof
end

