-- ==== Sys2Proof/WellFormed.lean ====
section
/-! DEFINITION. What the host must respect: the laws of the layouts (`41_header.md` rule R95, `42_frame.md`
rule R104), the widths of the typed operands (`30_encoding.md` rule R61), and the well-formed instructions. -/

namespace Sys2Proof

/-- A slice of a unit of `n` words (R67): `31 >= hi >= lo >= 0`, its word one of the unit's. -/
def Slice.legal (n : Nat) (s : Slice) : Bool := s.word < n && s.lo ≤ s.hi && s.hi ≤ 31

/-- A non-empty field map over words `0..n-1`, of width 1 to `wmax` (R67, R95, R104). -/
def FieldMap.legal (n wmax : Nat) (fm : FieldMap) : Bool :=
  !fm.isEmpty && fm.all (Slice.legal n) && fm.width ≤ wmax

/-- Two slices share no bit. -/
def Slice.disjoint (a b : Slice) : Bool := a.word != b.word || a.hi < b.lo || b.hi < a.lo

/-- No bit belongs to two of the slices (R95 law 3, R104 law 4). -/
def noOverlap : List Slice → Bool
  | [] => true
  | s :: rest => rest.all s.disjoint && noOverlap rest

/-- All slices of a header layout. -/
def HdrLayout.slices (L : HdrLayout) : List Slice :=
  L.trig ++ L.opening ++ L.closing ++ L.fid ++ L.len ++ L.t0

/-- The laws of `P_HDR_LAYOUT` (R95). Laws 4 and 5 are how the block uses the layout. -/
def HdrLayout.lawful (L : HdrLayout) : Bool :=
  L.trig.legal 6 64 && L.opening.legal 6 64 && L.closing.legal 6 64 && L.fid.legal 6 64 &&
    L.len.legal 6 64 && L.t0.legal 6 1 && noOverlap L.slices

/-- The slices an address source stores in a unit. -/
def AddrSource.slices : AddrSource → List Slice
  | .explicit colMap rowMap => colMap ++ rowMap
  | .positional _ => []

/-- An address source over units of `n` words (R104 law 3). -/
def AddrSource.legal (n : Nat) : AddrSource → Bool
  | .explicit colMap rowMap => colMap.legal n 32 && rowMap.legal n 32
  | .positional _ => true

/-- All slices of a unit layout in mode `m` (R104). -/
def Params.unitSlices (p : Params) (m : AcqMode) : List Slice :=
  (p.unitLayout m).addr.slices ++ (p.unitLayout m).tot ++
    (match m with
      | .totOnly => []
      | .totToa => p.arrivalMap)

/-- R103 and laws 1 to 4 of `P_PIX_LAYOUT[m]` (R104). -/
def Params.unitLawful (p : Params) (m : AcqMode) : Bool :=
  1 ≤ p.unitWords m && (p.unitLayout m).addr.legal (p.unitWords m) &&
    (p.unitLayout m).tot.legal (p.unitWords m) 32 &&
    (match m with
      | .totOnly => true
      | .totToa => p.arrivalMap.legal (p.unitWords m) 64) &&
    noOverlap (p.unitSlices m)

/-- The parameters are legal (R9, R95, R103, R104; R104 law 5 is the last conjunct). -/
def Params.lawful (p : Params) : Bool :=
  p.hdr.lawful && p.unitLawful .totOnly && p.unitLawful .totToa &&
    FieldMap.width (p.unitSlices .totOnly) < FieldMap.width (p.unitSlices .totToa)

/-- The numeric fields of a header fit their widths (R27, R94). -/
def FrameHeader.fits (p : Params) (h : FrameHeader) : Bool :=
  h.triggerTimestamp < 2 ^ p.hdr.trig.width && h.shutterOpen < 2 ^ p.hdr.opening.width &&
    h.shutterClose < 2 ^ p.hdr.closing.width && h.frameId < 2 ^ p.hdr.fid.width &&
    h.length < 2 ^ p.hdr.len.width

/-- A record as FRAME can produce it (R28, R29): a valid address, its values within `W_TOT` and `W_ARR`. -/
def PixelRecord.fits (p : Params) : PixelRecord → Bool
  | .tot addr v => addr.valid && v < 2 ^ p.unitTot.tot.width
  | .toa addr v arrivalTicks =>
    addr.valid && v < 2 ^ p.unitToa.tot.width && arrivalTicks < 2 ^ p.arrivalMap.width

/-- The operands are of the types R61 gives the ports. -/
def Operands.fits (p : Params) (o : Operands) : Bool :=
  o.h.fits p && o.arrival < 2 ^ p.arrivalMap.width && o.recs.all (PixelRecord.fits p) && o.r.fits p

/-- Every instruction is well formed: the one with a field, CFG_ACQ_MODE, takes every 8-bit value (R64). -/
def Instr.wellFormed : Instr → Bool
  | .hdr => true
  | .frameTot => true
  | .frameToa => true
  | .accept => true
  | .tsFrame => true
  | .tsHitTot => true
  | .tsHitToa => true
  | .filter => true
  | .convert => true
  | .recValue => true
  | .recMode => true
  | .recArrival => true
  | .cfgPlaneId => true
  | .cfgAcqMode _ => true

end Sys2Proof
end

