-- ==== Sys2Proof/Decode.lean ====
section
/-! DEFINITION. Command decode, total on every 32-bit word (`30_encoding.md` rules R60 to R66), and the encoder
(R63, R78), with the pseudo-instructions of R77. -/

namespace Sys2Proof

/-- `OPC = cmd[7:0]` (R60). -/
def opcOf (cmd : Word) : BitVec 8 := cmd.extractLsb' 0 8

/-- `MODE = cmd[15:8]` (R60). -/
def modeOf (cmd : Word) : ModeByte := cmd.extractLsb' 8 8

/-- `RSV = cmd[31:16]` (R60). -/
def rsvOf (cmd : Word) : BitVec 16 := cmd.extractLsb' 16 16

/-- Decode of an opcode whose MODE is an acquisition mode (R62, R64): FRAME and TS_HIT. -/
def decodeByMode (mode : ModeByte) (inTot inToa : Instr) : Except HardError Instr :=
  match AcqMode.ofByte? mode with
  | some .totOnly => .ok inTot
  | some .totToa => .ok inToa
  | none => .error (.unsupportedMode mode)

/-- Decode of an opcode whose MODE must be 0 (R62, R64). -/
def decodeModeZero (cmd : Word) (i : Instr) : Except HardError Instr :=
  if modeOf cmd = 0 then .ok i else .error (.illegalCommand cmd)

/-- `decode(cmd)` (R62), in its order: RSV, then the opcode, then the MODE field. -/
def decodeWord (cmd : Word) : Except HardError Instr :=
  if rsvOf cmd ≠ 0 then .error (.illegalCommand cmd)
  else match opcOf cmd with
    | 0x01#8 => decodeModeZero cmd .hdr
    | 0x02#8 => decodeByMode (modeOf cmd) .frameTot .frameToa
    | 0x03#8 => decodeModeZero cmd .accept
    | 0x04#8 => decodeModeZero cmd .tsFrame
    | 0x05#8 => decodeByMode (modeOf cmd) .tsHitTot .tsHitToa
    | 0x06#8 => decodeModeZero cmd .filter
    | 0x07#8 => decodeModeZero cmd .convert
    | 0x08#8 => decodeModeZero cmd .recValue
    | 0x09#8 => decodeModeZero cmd .recMode
    | 0x0A#8 => decodeModeZero cmd .recArrival
    | 0x10#8 => decodeModeZero cmd .cfgPlaneId
    | 0x11#8 => .ok (.cfgAcqMode (modeOf cmd))
    | _ => .error (.illegalCommand cmd)

/-- The command word with RSV 0 and the given MODE and OPC (R60). -/
def commandWord (mode : ModeByte) (opc : BitVec 8) : Word := (0 : BitVec 16) ++ mode ++ opc

/-- The command word of an instruction (R63, R78). -/
def encode : Instr → Word
  | .hdr => commandWord 0x00 0x01
  | .frameTot => commandWord 0x00 0x02
  | .frameToa => commandWord 0x01 0x02
  | .accept => commandWord 0x00 0x03
  | .tsFrame => commandWord 0x00 0x04
  | .tsHitTot => commandWord 0x00 0x05
  | .tsHitToa => commandWord 0x01 0x05
  | .filter => commandWord 0x00 0x06
  | .convert => commandWord 0x00 0x07
  | .recValue => commandWord 0x00 0x08
  | .recMode => commandWord 0x00 0x09
  | .recArrival => commandWord 0x00 0x0A
  | .cfgPlaneId => commandWord 0x00 0x10
  | .cfgAcqMode v => commandWord v 0x11

/-- The assembly mnemonic of R76. -/
def assemblyName : Instr → String
  | .hdr => "hdr"
  | .frameTot => "frame.tot"
  | .frameToa => "frame.toa"
  | .accept => "accept"
  | .tsFrame => "ts.frame"
  | .tsHitTot => "ts.hit.tot"
  | .tsHitToa => "ts.hit.toa"
  | .filter => "filter"
  | .convert => "convert"
  | .recValue => "rec.value"
  | .recMode => "rec.mode"
  | .recArrival => "rec.arrival"
  | .cfgPlaneId => "cfg.plane_id"
  | .cfgAcqMode _ => "cfg.acq_mode"

/-- `frame.mode <u8>` (R77). -/
def pseudoFrameMode (m : ModeByte) : Word := commandWord m 0x02

/-- `ts.hit.mode <u8>` (R77). -/
def pseudoTsHitMode (m : ModeByte) : Word := commandWord m 0x05

/-- `cfg.tot` (R77). -/
def pseudoCfgTot : Word := encode (.cfgAcqMode AcqMode.totOnly.byte)

/-- `cfg.toa` (R77). -/
def pseudoCfgToa : Word := encode (.cfgAcqMode AcqMode.totToa.byte)

/-- The instruction the decoder reads from `nbits` bits `w`: a command is one 32-bit word (R60), its bits
above `nbits` zero. -/
def decodeTableWord (nbits w : Nat) : Option Instr := (decodeWord (BitVec.ofNat 32 (w % 2 ^ nbits))).toOption

end Sys2Proof
end

