-- ==== Sys2Proof/Machine/Flags.lean ====
section
/-! DEFINITION. The response status, the block's only flags (`10_state.md` rule R26): status codes (R147), outcome
classes (R146, R150), sub-codes (R148), verdict codes (R116), and the diagnostic record of a skip (R160). -/

namespace Sys2Proof

/-- The status code of a skip (R147). -/
def Skip.code : Skip → BitVec 8
  | .malformed _ _ => 0x01
  | .notSynced _ => 0x02
  | .shutterOrder _ _ => 0x03

/-- The status code of a hard error (R147). -/
def HardError.code : HardError → BitVec 8
  | .illegalCommand _ => 0x10
  | .unsupportedMode _ => 0x11
  | .headerTruncated _ => 0x12
  | .payloadLength _ _ _ => 0x13
  | .addressRange _ _ _ => 0x14
  | .timestampRangeTick _ => 0x15
  | .timestampRangeHit _ _ => 0x15
  | .fieldAccess _ _ => 0x16
  | .declaredLength _ _ => 0x17

/-- The status of a response (R26, R147). -/
def Response.code : Response → BitVec 8
  | .ok _ => 0x00
  | .skip k => k.code
  | .error e => e.code

/-- The class an operation ended in (R146). -/
def Response.outcomeClass : Response → OutcomeClass
  | .ok _ => .ok
  | .skip _ => .skip
  | .error _ => .hardError

/-- The class a status code alone says (R150); no other code is ever produced (R147). -/
def classOfCode (c : BitVec 8) : Option OutcomeClass :=
  if c = 0x00 then some .ok
  else if 0x01 ≤ c ∧ c ≤ 0x03 then some .skip
  else if 0x10 ≤ c ∧ c ≤ 0x17 then some .hardError
  else none

/-- The sub-code of a malformed event (R148). -/
def MalformedReason.subCode : MalformedReason → Nat
  | .blockCount => 1
  | .byteLength => 2
  | .truncatedHeader => 3

/-- The number of a verdict (R116). -/
def Verdict.code : Verdict → Nat
  | .accepted => 0
  | .rejectNotSynced => 1
  | .rejectShutterOrder => 2

/-- The one diagnostic record a skip sends (R160, R148, R149). -/
def Skip.diagnostic (k : Skip) : Diagnostic :=
  match k with
  | .malformed reason _ => ⟨.warning, k.code, .malformed reason⟩
  | .notSynced _ => ⟨.debug, k.code, .notSynced⟩
  | .shutterOrder _ _ => ⟨.debug, k.code, .shutterOrder⟩

end Sys2Proof
end

