-- ==== Sys2Proof/Machine/State.lean ====
section
/-! DEFINITION. The state of one block (`10_state.md` rules R20 to R37), the reasons a step can stop, and the
state after reset (R37, `70_reset_and_hazards.md` rule R166). -/

namespace Sys2Proof.Machine

/-- One block: its parameters, its two configuration registers, its working latches, and its ports. -/
structure State where
  /-- The named parameters, fixed when the block is constructed (R9, R166). -/
  params : Params
  /-- `cfg.plane_id` (R24): 32 bits. -/
  planeId : BitVec 32
  /-- `cfg.acq_mode` (R24): 8 bits, every value stored. -/
  acqMode : ModeByte
  /-- The working latches (R21). -/
  latches : Latches
  /-- The requests of the run that have arrived and are not yet taken, in the order of arrival (R22, R179). -/
  pending : List Request
  /-- The MODEL's own: the requests of the run that a live reset dropped before they were answered, so that a run with
  one has not ended (R179, log entry 13). -/
  unanswered : List Request
  /-- The operand port (R61), as the request last taken drives it. -/
  port : Operands
  /-- What has left the block, in the order it left: events, diagnostic records and responses (R45, R52, R179). -/
  out : List Output
  /-- The MODEL's own: how many operations have begun, which picks the next free value of the undefined
  latches (log entry 6). -/
  undefIndex : Nat
  deriving DecidableEq, Repr

/-- Why a run stops with a fault. -/
inductive Fault where
  /-- A hard error, as R165 has a claim about a run see it. Raised by `Safety.strictStep` alone, never by
  `step`: the block answers the request and takes the next one (R155, R157). Safe: `strictStep` stops where
  the block goes on. -/
  | hardError (e : HardError)
  deriving DecidableEq, Repr

/-- Why a run is refused. -/
inductive Refusal where
  /-- Raised by an arm of `exec` whose instruction has no meaning yet. No arm raises it. Safe: the model
  stops where the block goes on. -/
  | notModelled (mnemonic : String)
  deriving DecidableEq, Repr

/-- What a meaning answers. -/
abbrev Effect := Host.Outcome State Fault Refusal

/-- The operand port before any request has driven it. The spec gives no value; no operation reads it before
a request is taken (log entry 7, DESIGN CHOICE). -/
def idleOperands : Operands where
  words := []
  payload := []
  h := ⟨0, 0, 0, 0, 0, false⟩
  startPs := 0
  endPs := 0
  arrival := 0
  recs := []
  ev := ⟨[], []⟩
  r := .toa ⟨0, 0⟩ 0 0
  v := 0

/-- The working latches after reset, which R37 leaves undefined (log entry 7, DESIGN CHOICE): zero and empty. -/
def idleLatches : Latches where
  header := ⟨0, 0, 0, 0, 0, false⟩
  cursor := 0
  recs := []
  hits := []
  frameStartPs := 0
  frameEndPs := 0

/-- A block constructed with parameters `p` (R166): `cfg.plane_id = 0`, `cfg.acq_mode = 0x01` (R37), no request
pending, no response outstanding and nothing emitted. -/
def State.construct (p : Params) : State where
  params := p
  planeId := 0
  acqMode := 0x01
  latches := idleLatches
  pending := []
  unanswered := []
  port := idleOperands
  out := []
  undefIndex := 0

/-- The machine right after reset, constructed with the parameter values the spec uses by default (R9). -/
def State.reset : State := State.construct Params.reference

end Sys2Proof.Machine
end

