-- ==== Sys2Proof/Machine/Ops.lean ====
section
/-! DEFINITION. The operations every meaning is made of: reads of the word buffers (`20_memory.md` rules R40 to
R49), writes of the configuration registers and the latches, the output streams (R45, R52), the end of an operation
with a result, and the ONE operation that ends it with a skip or a hard error (`60_exceptions.md` rule R155). -/

namespace Sys2Proof.Machine

/-- `MemRead(i, n)` (R14, R40): the words `i .. i+n-1`. Its callers check the bounds first (R49). -/
def memRead (words : List Word) (i n : Nat) : List Word := (words.drop i).take n

/-- One word from its four bytes in block order (R42). -/
def assembleWord (order : ByteOrder) (b0 b1 b2 b3 : Byte) : Word :=
  match order with
  | .little => b3 ++ b2 ++ b1 ++ b0
  | .big => b0 ++ b1 ++ b2 ++ b3

/-- The word buffer of a byte block (R42). Its caller checks that the length is a multiple of 4 (R43). -/
def assemble (order : ByteOrder) : List Byte → List Word
  | b0 :: b1 :: b2 :: b3 :: rest => assembleWord order b0 b1 b2 b3 :: assemble order rest
  | _ => []

/-- The four bytes of a word in block order: the shorthand of R76 for an event given by its words. -/
def wordBytes (order : ByteOrder) (w : Word) : List Byte :=
  match order with
  | .little => [w.extractLsb' 0 8, w.extractLsb' 8 8, w.extractLsb' 16 8, w.extractLsb' 24 8]
  | .big => [w.extractLsb' 24 8, w.extractLsb' 16 8, w.extractLsb' 8 8, w.extractLsb' 0 8]

/-- A byte block given by its words (R76). -/
def blockOfWords (order : ByteOrder) (words : List Word) : List Byte := words.flatMap (wordBytes order)

/-- Write `cfg.plane_id` (R24). -/
def State.writePlaneId (s : State) (v : BitVec 32) : State := { s with planeId := v }

/-- Write `cfg.acq_mode` (R24): every value is stored unchanged. -/
def State.writeAcqMode (s : State) (v : ModeByte) : State := { s with acqMode := v }

/-- Write the working latches (R21). -/
def State.writeLatches (s : State) (l : Latches) : State := { s with latches := l }

/-- One output leaves the block, after all that left it before (R52). -/
def State.send (s : State) (o : Output) : State := { s with out := s.out ++ [o] }

/-- `emit(ev)`: one whole event to the sink (R14, R48). -/
def State.emit (s : State) (ev : OutEvent) : State := s.send (.event ev)

/-- One record to the diagnostic port (R160). -/
def State.sendDiag (s : State) (d : Diagnostic) : State := s.send (.diag d)

/-- The operation's one response (R26), after its event and diagnostic record (R52). -/
def State.respond (s : State) (r : Response) : State := s.send (.response r)

/-- `return v` (R14): the operation ends OK. -/
def complete (r : Result) (s : State) : Effect := .next (s.respond (.ok r))

/-- A skip (R148, R149, R160): its one diagnostic record, then its response. -/
def takeSkip (k : Skip) (s : State) : State := (s.sendDiag k.diagnostic).respond (.skip k)

/-- A hard error (R155): the response with the code and the info, and nothing else. -/
def takeHardError (e : HardError) (s : State) : State := s.respond (.error e)

/-- ENTRY on a skip or a hard error (R155): the operation stops at the failing check and the block responds.
Nothing is saved, no event is emitted and the configuration is as it was (R156). There is no return operation:
the next request runs normally (R157). -/
def takeStop (x : Stop) (s : State) : Effect :=
  match x with
  | .skip k => .next (takeSkip k s)
  | .hard e => .next (takeHardError e s)

/-- `return v` or `raise E(info)`, as a computation ended (R14). -/
def finish (o : Except HardError Result) (s : State) : Effect :=
  match o with
  | .ok r => complete r s
  | .error e => takeStop (.hard e) s

/-- Taking the next request (R22): it leaves the queue, and the working latches are undefined (R21, U12). -/
def State.beginOperation (s : State) (rest : List Request) : State :=
  { s with pending := rest, latches := Config.undefinedLatches s.undefIndex, undefIndex := s.undefIndex + 1 }

/-- The request's operands drive the operand port (R61). -/
def State.loadPort (s : State) (o : Operands) : State := { s with port := o }

/-- A command word that decode rejects (R62): the error ends the operation before any operand is read. -/
def rejectCommand (e : HardError) (s : State) : Effect := takeStop (.hard e) s

/-- With no request pending the block waits for one (R167). -/
def awaitRequest (s : State) : Effect := .next s

/-- HOST: one more request arrives (R22, R180). -/
def State.issue (s : State) (r : Request) : State := { s with pending := s.pending ++ [r] }

/-- HOST: a reset input on a live block (R166): every state takes its reset value, the parameters stay (R166),
and what was emitted before stays emitted (R168). A request still pending is dropped and stays unanswered (R179). -/
def State.applyReset (s : State) : State :=
  { State.construct s.params with
    out := s.out, undefIndex := s.undefIndex, unanswered := s.unanswered ++ s.pending }

/-- A step of an operation that works on the latches: what it leaves in them, and what ended it early. -/
abbrev Stage := Latches → Latches × Option Stop

/-- Stages in order, up to the first that ends the operation (R14). -/
def runStages : List Stage → Stage
  | [], l => (l, none)
  | stage :: rest, l =>
    match stage l with
    | (l', none) => runStages rest l'
    | (l', some x) => (l', some x)

/-- A check that touches no latch. -/
def checkStage (check : Latches → Option Stop) : Stage := fun l => (l, check l)

/-- An operation made of stages: the latches it leaves, then its early end or what it does on success. -/
def runOperation (stages : List Stage) (onSuccess : Latches → State → Effect) (s : State) : Effect :=
  match runStages stages s.latches with
  | (l, none) => onSuccess l (s.writeLatches l)
  | (l, some x) => takeStop x (s.writeLatches l)

end Sys2Proof.Machine
end

