-- ==== Sys2Proof/Machine/Operands.lean ====
section
/-! DEFINITION. The operand forms of `30_encoding.md` rule R61: which port each operation reads. No operand is a
register number or a memory address. -/

namespace Sys2Proof.Machine

/-- HDR: `words`. -/
def State.wordsOperand (s : State) : List Word := s.port.words

/-- FRAME.TOT, FRAME.TOA: `payload`. -/
def State.payloadOperand (s : State) : List Word := s.port.payload

/-- ACCEPT, TS_FRAME: `h`. -/
def State.headerOperand (s : State) : FrameHeader := s.port.h

/-- TS_HIT.TOT: `start_ps`. -/
def State.startOperand (s : State) : Picos := s.port.startPs

/-- TS_HIT.TOT, TS_HIT.TOA: `end_ps`. -/
def State.endOperand (s : State) : Picos := s.port.endPs

/-- TS_HIT.TOA: `arrival`. -/
def State.arrivalOperand (s : State) : Nat := s.port.arrival

/-- FILTER: `recs`. -/
def State.recordsOperand (s : State) : List PixelRecord := s.port.recs

/-- CONVERT: `ev`. -/
def State.eventOperand (s : State) : InEvent := s.port.ev

/-- REC_VALUE, REC_MODE, REC_ARRIVAL: `r`. -/
def State.recordOperand (s : State) : PixelRecord := s.port.r

/-- CFG_PLANE_ID: `v`. -/
def State.valueOperand (s : State) : BitVec 32 := s.port.v

end Sys2Proof.Machine
end

