-- ==== Sys2Proof/Machine/Frame.lean ====
section
/-! DEFINITION. The mode-muxed pixel record unpacker: FRAME.TOT and FRAME.TOA (`42_frame.md` rules R102 to R114). -/

namespace Sys2Proof.Machine

/-- The unit at the payload cursor `k`: words `k*L .. k*L+L-1` (R23), decoded (R105). -/
def rawUnit (p : Params) (m : AcqMode) (payload : List Word) (k : Nat) : RawRec :=
  p.decodeUnit m k (memRead payload (k * p.unitWords m) (p.unitWords m))

/-- The unpacking loop over the units still to come (R107, R108): each unit is decoded, its address checked
(R106) and its record appended, and the cursor rises by 1 (R23). -/
def unpackUnits (p : Params) (m : AcqMode) (payload : List Word) : Nat → Stage
  | 0, l => (l, none)
  | units + 1, l =>
    let raw := rawUnit p m payload l.cursor
    if raw.addr.valid then
      unpackUnits p m payload units { l with cursor := l.cursor + 1, recs := l.recs ++ [raw] }
    else (l, some (.hard (.addressRange l.cursor raw.addr.col raw.addr.row)))

/-- The unpacker under mode `m` (R107, R108): the payload length is checked before any unit is read (R112). -/
def unpackStage (p : Params) (m : AcqMode) (payload : List Word) : Stage := fun l =>
  if payload.length % p.unitWords m = 0 then
    unpackUnits p m payload (payload.length / p.unitWords m) { l with cursor := 0, recs := [] }
  else (l, some (.hard (.payloadLength payload.length (p.unitWords m) m.byte)))

/-- FRAME.TOT (R107): the ToT-only packing. -/
def execFrameTot (s : State) : Effect :=
  runOperation [unpackStage s.params .totOnly s.payloadOperand] (fun l => complete (.records l.recs)) s

/-- FRAME.TOA (R108): the ToT+ToA packing. -/
def execFrameToa (s : State) : Effect :=
  runOperation [unpackStage s.params .totToa s.payloadOperand] (fun l => complete (.records l.recs)) s

end Sys2Proof.Machine
end

