-- ==== Sys2Proof/Machine/Header.lean ====
section
/-! DEFINITION. The frame header extractor: HDR (`41_header.md` rules R93 to R101). -/

namespace Sys2Proof.Machine

/-- The header extractor on a word buffer (R96): `ERR_HEADER_TRUNCATED` before any word is read, or the header
latch written from the first six words. It checks no field value (R97). -/
def headerStage (p : Params) (words : List Word) : Stage := fun l =>
  if words.length < Config.headerWords then (l, some (.hard (.headerTruncated words.length)))
  else ({ l with header := p.hdr.decode (memRead words 0 Config.headerWords) }, none)

/-- HDR (R96). -/
def execHdr (s : State) : Effect :=
  runOperation [headerStage s.params s.wordsOperand] (fun l => complete (.header l.header)) s

end Sys2Proof.Machine
end

