-- ==== Sys2Proof/Machine/Validator.lean ====
section
/-! DEFINITION. The timestamp validator: ACCEPT, TS_FRAME, TS_HIT.TOT, TS_HIT.TOA and FILTER
(`43_acceptance_timestamps.md` rules R115 to R128). -/

namespace Sys2Proof.Machine

/-- The frame-acceptance policy (R116): T0 first, then the shutter order. -/
def acceptance (h : FrameHeader) : Verdict :=
  if h.t0Flag = false then .rejectNotSynced
  else if h.shutterClose < h.shutterOpen then .rejectShutterOrder
  else .accepted

/-- ACCEPT (R116): the verdict is the result. -/
def execAccept (s : State) : Effect := complete (.verdict (acceptance s.headerOperand)) s

/-- `to_ps(v)` (R117), narrowed to 64 bits by `P_TS_OVERFLOW` (R118). -/
def toPs (policy : TsOverflow) (tick : Nat) : Except HardError Picos :=
  match policy with
  | .fault =>
    if 2 ^ 64 ≤ tick * Config.psPerTick then .error (.timestampRangeTick tick)
    else .ok (BitVec.ofNat 64 (tick * Config.psPerTick))
  | .wrap64 => .ok (BitVec.ofNat 64 (tick * Config.psPerTick))

/-- The ToT midpoint (R118, R120): the exact sum under `fault`, the wrapped one under `wrap64`. -/
def midpoint (policy : TsOverflow) (startPs endPs : Picos) : Picos :=
  match policy with
  | .fault => BitVec.ofNat 64 ((startPs.toNat + endPs.toNat) / 2)
  | .wrap64 => BitVec.ofNat 64 ((startPs.toNat + endPs.toNat) % 2 ^ 64 / 2)

/-- The ToA hit time (R118, R121). -/
def hitFromEnd (policy : TsOverflow) (endPs : Picos) (arrivalTicks : Nat) : Except HardError Picos :=
  match policy with
  | .fault =>
    if endPs.toNat < arrivalTicks * Config.psPerTick then .error (.timestampRangeHit endPs arrivalTicks)
    else .ok (BitVec.ofNat 64 (endPs.toNat - arrivalTicks * Config.psPerTick))
  | .wrap64 => .ok (endPs - BitVec.ofNat 64 (arrivalTicks * Config.psPerTick))

/-- The frame time base of a header (R119): the open check first, each latch written as it is computed. -/
def timeStage (p : Params) (h : FrameHeader) : Stage := fun l =>
  match toPs p.tsOverflow h.shutterOpen with
  | .error e => (l, some (.hard e))
  | .ok startPs =>
    match toPs p.tsOverflow h.shutterClose with
    | .error e => ({ l with frameStartPs := startPs }, some (.hard e))
    | .ok endPs => ({ l with frameStartPs := startPs, frameEndPs := endPs }, none)

/-- TS_FRAME (R119). -/
def execTsFrame (s : State) : Effect :=
  runOperation [timeStage s.params s.headerOperand]
    (fun l => complete (.frameTimes l.frameStartPs l.frameEndPs)) s

/-- TS_HIT.TOT (R120). -/
def execTsHitTot (s : State) : Effect :=
  complete (.timestamp (midpoint s.params.tsOverflow s.startOperand s.endOperand)) s

/-- TS_HIT.TOA (R121). -/
def execTsHitToa (s : State) : Effect :=
  finish ((hitFromEnd s.params.tsOverflow s.endOperand s.arrivalOperand).map .timestamp) s

/-- Zero-magnitude suppression (R126): order and duplicates are kept. -/
def suppressZero (recs : List PixelRecord) : List PixelRecord := recs.filter fun r => r.magnitude != 0

/-- FILTER (R126). -/
def execFilter (s : State) : Effect := complete (.records (suppressZero s.recordsOperand)) s

end Sys2Proof.Machine
end

