-- ==== Sys2Proof/Machine/Convert.lean ====
section
/-! DEFINITION. The conversion sequencer CONVERT and the configuration operations CFG_PLANE_ID and CFG_ACQ_MODE
(`44_conversion.md` rules R132 to R145). -/

namespace Sys2Proof.Machine

/-- Part 1 of R133: the words of a well-shaped event, or the malformed-event skip, its checks in the order of
R152: block count, byte length, word count. -/
def eventWords (order : ByteOrder) (ev : InEvent) : Except Skip (List Word) :=
  match ev.blocks with
  | [bytes] =>
    if bytes.length % 4 ≠ 0 then .error (.malformed .byteLength bytes.length)
    else if (assemble order bytes).length < Config.headerWords then
      .error (.malformed .truncatedHeader (assemble order bytes).length)
    else .ok (assemble order bytes)
  | blocks => .error (.malformed .blockCount blocks.length)

/-- Part 3 of R133: a rejected frame is skipped. -/
def acceptStop (h : FrameHeader) : Option Stop :=
  match acceptance h with
  | .rejectNotSynced => some (.skip (.notSynced h.frameId))
  | .rejectShutterOrder => some (.skip (.shutterOrder h.shutterOpen h.shutterClose))
  | .accepted => none

/-- Part 4 of R133: the declared length (R134), read only under `require_equal`. -/
def lengthStop (check : LengthCheck) (payload : List Word) (h : FrameHeader) : Option Stop :=
  match check with
  | .ignore => none
  | .requireEqual =>
    if h.length = payload.length then none else some (.hard (.declaredLength h.length payload.length))

/-- Part 5 of R133: the unpacker under the configured mode (R135). -/
def configuredUnpackStage (p : Params) (mode : ModeByte) (payload : List Word) : Stage := fun l =>
  match AcqMode.ofByte? mode with
  | some m => unpackStage p m payload l
  | none => (l, some (.hard (.unsupportedMode mode)))

/-- The timestamp of a record (R136): TS_HIT of the mode the record was decoded under, which in CONVERT is
the configured one. -/
def hitTime (policy : TsOverflow) (startPs endPs : Picos) : PixelRecord → Except HardError Picos
  | .tot _ _ => .ok (midpoint policy startPs endPs)
  | .toa _ _ arrivalTicks => hitFromEnd policy endPs arrivalTicks

/-- A hit entry (R33, R136). -/
def hitEntry (r : PixelRecord) (ts : Picos) : Hit :=
  ⟨BitVec.ofNat 6 r.addr.col, BitVec.ofNat 4 r.addr.row, r.magnitude, ts⟩

/-- Part 7 of R133, over the records that are left: one hit each, in order. -/
def appendHits (policy : TsOverflow) : List PixelRecord → Stage
  | [], l => (l, none)
  | r :: rest, l =>
    match hitTime policy l.frameStartPs l.frameEndPs r with
    | .error e => (l, some (.hard e))
    | .ok ts => appendHits policy rest { l with hits := l.hits ++ [hitEntry r ts] }

/-- Part 7 of R133: FILTER before any timestamp is computed (R136). -/
def hitStage (p : Params) : Stage := fun l =>
  appendHits p.tsOverflow (suppressZero l.recs) { l with hits := [] }

/-- Part 6 of R133: the frame time base of the latched header (R119). -/
def headerTimeStage (p : Params) : Stage := fun l => timeStage p l.header l

/-- The payload of a frame: every word after the header (R50, R133). -/
def payloadOf (words : List Word) : List Word := words.drop Config.headerWords

/-- Parts 2 to 7 of R133, in order. -/
def convertStages (p : Params) (mode : ModeByte) (words : List Word) : List Stage :=
  [headerStage p words,
    checkStage (fun l => acceptStop l.header),
    checkStage (fun l => lengthStop p.lengthCheck (payloadOf words) l.header),
    configuredUnpackStage p mode (payloadOf words),
    headerTimeStage p,
    hitStage p]

/-- Part 8 of R133: the output event (R32, R137), its tags carried over unchanged (R138). -/
def outEvent (p : Params) (planeId : BitVec 32) (tags : List Tag) (l : Latches) : OutEvent where
  plane :=
    { planeId := planeId, sensorType := p.sensorType, cols := Config.cols, rows := Config.rows, hits := l.hits }
  frameStartPs := l.frameStartPs
  frameEndPs := l.frameEndPs
  sequenceNumber := BitVec.ofNat 64 l.header.frameId
  detectorType := p.detectorType
  tags := tags

/-- CONVERT (R133). -/
def execConvert (s : State) : Effect :=
  match eventWords s.params.byteOrder s.eventOperand with
  | .error k => takeStop (.skip k) s
  | .ok words =>
    runOperation (convertStages s.params s.acqMode words)
      (fun l t => complete .converted (t.emit (outEvent t.params t.planeId t.eventOperand.tags l))) s

/-- CFG_PLANE_ID (R141). -/
def execCfgPlaneId (s : State) : Effect := complete .noValue (s.writePlaneId s.valueOperand)

/-- CFG_ACQ_MODE (R142): every 8-bit value is stored. -/
def execCfgAcqMode (v : ModeByte) (s : State) : Effect := complete .noValue (s.writeAcqMode v)

end Sys2Proof.Machine
end

