-- ==== Sys2Proof/Machine/RecordModel.lean ====
section
/-! DEFINITION. The record accessors REC_VALUE, REC_MODE and REC_ARRIVAL (`40_record_model.md` rules R86 to R88). -/

namespace Sys2Proof.Machine

/-- REC_VALUE (R86): the hit magnitude of either variant. -/
def execRecValue (s : State) : Effect := complete (.magnitude s.recordOperand.magnitude) s

/-- REC_MODE (R87): the mode tag, 8 bits. -/
def execRecMode (s : State) : Effect := complete (.mode s.recordOperand.acqMode.byte) s

/-- `arrival()` of a record (R88): `ERR_FIELD_ACCESS` on a ToT record, never a sentinel. -/
def arrivalOf (r : PixelRecord) : Except HardError Nat :=
  match r.arrival? with
  | some arrivalTicks => .ok arrivalTicks
  | none => .error (.fieldAccess AcqMode.totOnly.byte .arrival)

/-- REC_ARRIVAL (R88). -/
def execRecArrival (s : State) : Effect := finish ((arrivalOf s.recordOperand).map .arrival) s

end Sys2Proof.Machine
end

