-- ==== Sys2Proof/Machine/Dispatch.lean ====
section
/-! DEFINITION. The meaning of each operation (`30_encoding.md` rule R63), one arm per constructor of Instr. -/

namespace Sys2Proof.Machine

def exec (i : Instr) (s : State) : Host.Outcome State Fault Refusal :=
  match i with
  | .hdr => Sys2Proof.Machine.execHdr s
  | .frameTot => Sys2Proof.Machine.execFrameTot s
  | .frameToa => Sys2Proof.Machine.execFrameToa s
  | .accept => Sys2Proof.Machine.execAccept s
  | .tsFrame => Sys2Proof.Machine.execTsFrame s
  | .tsHitTot => Sys2Proof.Machine.execTsHitTot s
  | .tsHitToa => Sys2Proof.Machine.execTsHitToa s
  | .filter => Sys2Proof.Machine.execFilter s
  | .convert => Sys2Proof.Machine.execConvert s
  | .recValue => Sys2Proof.Machine.execRecValue s
  | .recMode => Sys2Proof.Machine.execRecMode s
  | .recArrival => Sys2Proof.Machine.execRecArrival s
  | .cfgPlaneId => Sys2Proof.Machine.execCfgPlaneId s
  | .cfgAcqMode v => Sys2Proof.Machine.execCfgAcqMode v s

end Sys2Proof.Machine
end

