-- ==== Sys2Proof/Machine/Step.lean ====
section
/-! DEFINITION. One step of the block (`10_state.md` rule R22): it takes the next request, decodes its command
word (`30_encoding.md` rule R62) and runs the operation. -/

namespace Sys2Proof.Machine

/-- One step: the next request in order of arrival (R22), or a wait where there is none (R167). -/
def step (s : State) : Host.Outcome State Fault Refusal :=
  match s.pending with
  | [] => awaitRequest s
  | r :: rest =>
    match decodeWord r.cmd with
    | .error e => rejectCommand e (s.beginOperation rest)
    | .ok i => exec i ((s.beginOperation rest).loadPort r.operands)

/-- The state whose next request is the command word `w` (R60), with the operands that stand on the port. -/
def State.withFetchWord (s : State) (nbits w : Nat) : State :=
  { s with pending := ⟨BitVec.ofNat 32 (w % 2 ^ nbits), s.port⟩ :: s.pending }

end Sys2Proof.Machine
end

