-- ==== Sys2Proof/Machine/Assembly.lean ====
section
/-! DEFINITION. The assembly lines of `30_encoding.md` rules R76 and R77, as terms: each is one command with its
operands. The text is notation only (92 D23). -/

namespace Sys2Proof.Machine

/-- A block of an event as a line writes it: its bytes, or the shorthand by its words (R76). -/
inductive BlockLiteral where
  | bytes (bs : List Byte)
  | words (ws : List Word)
  deriving DecidableEq, Repr

/-- The bytes of a block literal: a word buffer means its bytes in `P_BYTE_ORDER` (R76). -/
def BlockLiteral.block (order : ByteOrder) : BlockLiteral → List Byte
  | .bytes bs => bs
  | .words ws => blockOfWords order ws

/-- One line of assembly: a mnemonic of R76 or a pseudo-instruction of R77, with its operands. -/
inductive AsmLine where
  | hdr (words : List Word)
  | frameTot (payload : List Word)
  | frameToa (payload : List Word)
  | accept (h : FrameHeader)
  | tsFrame (h : FrameHeader)
  | tsHitTot (startPs endPs : Picos)
  | tsHitToa (endPs : Picos) (arrival : Nat)
  | filter (recs : List PixelRecord)
  | convert (blocks : List BlockLiteral) (tags : List Tag)
  | recValue (r : PixelRecord)
  | recMode (r : PixelRecord)
  | recArrival (r : PixelRecord)
  | cfgPlaneId (v : BitVec 32)
  | cfgAcqMode (v : ModeByte)
  /-- `frame.mode <u8> payload=…` (R77). -/
  | frameMode (m : ModeByte) (payload : List Word)
  /-- `ts.hit.mode <u8> …` (R77), with the operands of both forms. -/
  | tsHitMode (m : ModeByte) (startPs endPs : Picos) (arrival : Nat)
  /-- `cfg.tot` (R77). -/
  | cfgTot
  /-- `cfg.toa` (R77). -/
  | cfgToa
  deriving DecidableEq, Repr

/-- The operation a line stands for, or the error its command ends in (R76, R77). -/
def AsmLine.operation : AsmLine → Except HardError Instr
  | .hdr _ => .ok .hdr
  | .frameTot _ => .ok .frameTot
  | .frameToa _ => .ok .frameToa
  | .accept _ => .ok .accept
  | .tsFrame _ => .ok .tsFrame
  | .tsHitTot _ _ => .ok .tsHitTot
  | .tsHitToa _ _ => .ok .tsHitToa
  | .filter _ => .ok .filter
  | .convert _ _ => .ok .convert
  | .recValue _ => .ok .recValue
  | .recMode _ => .ok .recMode
  | .recArrival _ => .ok .recArrival
  | .cfgPlaneId _ => .ok .cfgPlaneId
  | .cfgAcqMode v => .ok (.cfgAcqMode v)
  | .frameMode m _ => decodeByMode m .frameTot .frameToa
  | .tsHitMode m _ _ _ => decodeByMode m .tsHitTot .tsHitToa
  | .cfgTot => .ok (.cfgAcqMode 0x00)
  | .cfgToa => .ok (.cfgAcqMode 0x01)

/-- The command word of a line (R77, R78). -/
def AsmLine.command : AsmLine → Word
  | .hdr _ => 0x00000001
  | .frameTot _ => 0x00000002
  | .frameToa _ => 0x00000102
  | .accept _ => 0x00000003
  | .tsFrame _ => 0x00000004
  | .tsHitTot _ _ => 0x00000005
  | .tsHitToa _ _ => 0x00000105
  | .filter _ => 0x00000006
  | .convert _ _ => 0x00000007
  | .recValue _ => 0x00000008
  | .recMode _ => 0x00000009
  | .recArrival _ => 0x0000000A
  | .cfgPlaneId _ => 0x00000010
  | .cfgAcqMode v => commandWord v 0x11
  | .frameMode m _ => pseudoFrameMode m
  | .tsHitMode m _ _ _ => pseudoTsHitMode m
  | .cfgTot => pseudoCfgTot
  | .cfgToa => pseudoCfgToa

/-- The ports a line drives; what stands on the others does not matter (R61). -/
def AsmLine.operands (order : ByteOrder) (others : Operands) : AsmLine → Operands
  | .hdr words => { others with words := words }
  | .frameTot payload => { others with payload := payload }
  | .frameToa payload => { others with payload := payload }
  | .accept h => { others with h := h }
  | .tsFrame h => { others with h := h }
  | .tsHitTot startPs endPs => { others with startPs := startPs, endPs := endPs }
  | .tsHitToa endPs arrival => { others with endPs := endPs, arrival := arrival }
  | .filter recs => { others with recs := recs }
  | .convert blocks tags => { others with ev := ⟨blocks.map (BlockLiteral.block order), tags⟩ }
  | .recValue r => { others with r := r }
  | .recMode r => { others with r := r }
  | .recArrival r => { others with r := r }
  | .cfgPlaneId v => { others with v := v }
  | .cfgAcqMode _ => others
  | .frameMode _ payload => { others with payload := payload }
  | .tsHitMode _ startPs endPs arrival => { others with startPs := startPs, endPs := endPs, arrival := arrival }
  | .cfgTot => others
  | .cfgToa => others

/-- The request a line stands for. -/
def AsmLine.request (order : ByteOrder) (others : Operands) (l : AsmLine) : Request :=
  ⟨l.command, l.operands order others⟩

end Sys2Proof.Machine
end

