-- ==== Sys2Proof/Machine/Instances.lean ====
section
/-! DEFINITION. Several instances side by side (`10_state.md` rule R36, `20_memory.md` rule R53, `60_exceptions.md` rule
R162) and the host's moves on them (`70_reset_and_hazards.md` rule R180). -/

namespace Sys2Proof.Machine

/-- The instances that exist, in the order they were constructed; `P_INSTANCES` is how many. -/
structure System where
  instances : List State
  deriving DecidableEq, Repr

/-- Before the host has constructed any instance (R166). -/
def System.empty : System := ⟨[]⟩

/-- One move of a run (R179, R180). A move names the instance it acts on by its place; no move changes an
operand of an operation under way (R171). -/
inductive Move where
  /-- The host constructs one more instance (R166). -/
  | construct (p : Params)
  /-- A reset input on a live instance (R166). -/
  | reset (n : Nat)
  /-- A request arrives at an instance (R22). -/
  | issue (n : Nat) (r : Request)
  /-- An instance takes its next step. -/
  | run (n : Nat)
  deriving DecidableEq, Repr

/-- The instance a move acts on; constructing one acts on none. -/
def Move.target : Move → Option Nat
  | .construct _ => none
  | .reset n => some n
  | .issue n _ => some n
  | .run n => some n

/-- A step of instance `n`. A place with no instance is no move. -/
def System.runAt (sys : System) (n : Nat) : Host.Outcome System Fault Refusal :=
  match sys.instances[n]? with
  | none => .next sys
  | some s =>
    match step s with
    | .next t => .next ⟨sys.instances.set n t⟩
    | .fault f => .fault f
    | .refused r => .refused r

/-- One move of a run over all instances: it touches only the instance it names (R36, R53, R168). -/
def System.move (sys : System) : Move → Host.Outcome System Fault Refusal
  | .construct p => .next ⟨sys.instances ++ [State.construct p]⟩
  | .reset n => .next ⟨sys.instances.modify n State.applyReset⟩
  | .issue n r => .next ⟨sys.instances.modify n (fun s => s.issue r)⟩
  | .run n => sys.runAt n

/-- Moves in order, up to the first fault or refusal. -/
def System.moves (sys : System) : List Move → Host.Outcome System Fault Refusal
  | [] => .next sys
  | m :: rest =>
    match sys.move m with
    | .next t => t.moves rest
    | .fault f => .fault f
    | .refused r => .refused r

end Sys2Proof.Machine
end

