-- ==== Sys2Proof/Safety.lean ====
section
/-! DEFINITION. What a run is observed by (`70_reset_and_hazards.md` rule R179), what counts as a safe run
(`60_exceptions.md` rule R165), and the invariant a step keeps. -/

namespace Sys2Proof.Machine

/-- The events the block emitted, in order (R45, R52). -/
def State.events (s : State) : List OutEvent :=
  s.out.filterMap fun o => match o with
    | .event ev => some ev
    | .diag _ => none
    | .response _ => none

/-- The diagnostic records the block sent, in order (R160). -/
def State.diagnostics (s : State) : List Diagnostic :=
  s.out.filterMap fun o => match o with
    | .event _ => none
    | .diag d => some d
    | .response _ => none

/-- The responses the block returned, in order (R26). -/
def State.responses (s : State) : List Response :=
  s.out.filterMap fun o => match o with
    | .event _ => none
    | .diag _ => none
    | .response r => some r

/-- What a run of one instance is observed by (R179). -/
structure Observation where
  responses : List Response
  events : List OutEvent
  diagnostics : List Diagnostic
  deriving DecidableEq, Repr

/-- The observation of what has happened so far. -/
def State.observation (s : State) : Observation := ⟨s.responses, s.events, s.diagnostics⟩

/-- Every request of an instance has its response (R179): none is pending, since a step answers the one it takes, and
no live reset dropped one. -/
def State.ended (s : State) : Bool := s.pending.isEmpty && s.unanswered.isEmpty

/-- A run over several instances has ended when every request has its response (R179). -/
def System.ended (sys : System) : Bool := sys.instances.all State.ended

/-- What a run is observed by (R179): each instance's own responses, events and diagnostic records. How the outputs of
two instances interleave is no part of it (R53). -/
def System.observation (sys : System) : List Observation := sys.instances.map State.observation

/-- The observation of a run (R179): a finite list of moves, from no instance to at least one, that has ended. A
list of moves that has not ended has none. -/
def runObservation (moves : List Move) : Option (List Observation) :=
  match System.empty.moves moves with
  | .next sys => if sys.ended && !sys.instances.isEmpty then some sys.observation else none
  | .fault _ => none
  | .refused _ => none

/-- So many steps in order, up to the first fault or refusal. -/
def runSteps : Nat → State → Host.Outcome State Fault Refusal
  | 0, s => .next s
  | n + 1, s =>
    match step s with
    | .next t => runSteps n t
    | .fault f => .fault f
    | .refused r => .refused r

/-- The hard error an output reports. -/
def hardErrorOf : Output → Option HardError
  | .event _ => none
  | .diag _ => none
  | .response (.ok _) => none
  | .response (.skip _) => none
  | .response (.error e) => some e

/-- The premise "no hard error" of a claim about a run (R165). -/
def State.noHardError (s : State) : Bool := s.out.all fun o => (hardErrorOf o).isNone

/-- `step` as R165 has a model see it: a hard error is a fault of the run that raised it. -/
def strictStep (s : State) : Host.Outcome State Fault Refusal :=
  match step s with
  | .next t =>
    match (t.out.drop s.out.length).findSome? hardErrorOf with
    | some e => .fault (.hardError e)
    | none => .next t
  | .fault f => .fault f
  | .refused r => .refused r

/-- The order of the outputs of whole operations (R26, R48, R52, R140, R160): every operation ends in one response;
an event stands only before CONVERTED, and CONVERTED only after an event; a diagnostic record stands only before
the skip it reports, and a skip only after its record. -/
def wellBracketed : List Output → Bool
  | [] => true
  | .event _ :: .response (.ok .converted) :: rest => wellBracketed rest
  | .diag d :: .response (.skip k) :: rest => d == k.diagnostic && wellBracketed rest
  | .response (.ok r) :: rest => r != .converted && wellBracketed rest
  | .response (.error _) :: rest => wellBracketed rest
  | _ => false

/-- What every emitted event keeps (R32, R126): the fixed geometry, no zero-magnitude hit, and under `fault` (R118)
frame times in order and no hit after the frame's end. -/
def eventSound (policy : TsOverflow) (ev : OutEvent) : Bool :=
  ev.plane.cols == Config.cols && ev.plane.rows == Config.rows &&
    ev.plane.hits.all (fun hit => hit.tot != 0) &&
    (match policy with
      | .fault => ev.frameStartPs ≤ ev.frameEndPs && ev.plane.hits.all (fun hit => hit.timestampPs ≤ ev.frameEndPs)
      | .wrap64 => true)

/-- What every output keeps: sound events, and valid addresses in every record returned (R28). -/
def outputSound (policy : TsOverflow) : Output → Bool
  | .event ev => eventSound policy ev
  | .response (.ok (.records recs)) => recs.all fun r => r.addr.valid
  | _ => true

/-- The invariant of a block whose requests carry valid records: legal parameters (R95, R104), whole operations'
outputs in order, and sound outputs. -/
def State.invariant (s : State) : Bool :=
  s.params.lawful && s.pending.all (fun r => r.operands.recs.all fun x => x.addr.valid) &&
    wellBracketed s.out && s.out.all (outputSound s.params.tsOverflow)

end Sys2Proof.Machine
end

