-- ==== Sys2Proof/Certificates/Slice0/Obligations.lean ====
section
/-! DEFINITION. The statements for the provers. Each docstring names the rules of spec/ it formalises. `s.port` holds
the operands of the operation (R61); `out` is what has left the block, newest last (R45, R26). An equation
`exec i s = .next (s with …)` is the instruction's result, its completion and its frame at once: every
field that the update does not name is unchanged. -/

open Sys2Proof Sys2Proof.Machine

/-! ## Commands and steps -/

/-- A request whose command word decodes runs as that instruction (R22, R62): it leaves the queue, its operands
drive the port, the latches become the operation's free value (log entry 6), and step is exec. -/
def Obligations.StepRunsTheDecodedInstruction : Prop :=
  ∀ (s : State) (r : Request) (rest : List Request) (i : Instr),
    s.pending = r :: rest → decodeWord r.cmd = .ok i →
    step s = exec i { s with
      pending := rest, port := r.operands,
      latches := Config.undefinedLatches s.undefIndex, undefIndex := s.undefIndex + 1 }

/-- The host's hook: a command word placed where step takes its next request runs as the instruction the decoder
reads from it, with the operands that stand on the port. The hook is the model's own (log entry 2). -/
def Obligations.PlacedCommandRuns : Prop :=
  ∀ (s : State) (w : Nat) (i : Instr), decodeTableWord 32 w = some i →
    step (s.withFetchWord 32 w) = exec i { s with
      latches := Config.undefinedLatches s.undefIndex, undefIndex := s.undefIndex + 1 }

/-- A command with RSV not 0, with an opcode outside R63, or with a MODE other than 0 where R64 requires 0, raises
`ERR_ILLEGAL_COMMAND` with the command word as info, and nothing else happens (30_encoding.md R66): the request is
consumed, and of the state only the latches differ. That they take the operation's free value is the model's
form of R21's "undefined" (log entry 6). -/
def Obligations.IllegalCommandsAreRejected : Prop :=
  ∀ (s : State) (r : Request) (rest : List Request), s.pending = r :: rest →
    (r.cmd.toNat / 2 ^ 16 ≠ 0 ∨
      r.cmd.toNat % 2 ^ 8 ∉ [0x01, 0x02, 0x03, 0x04, 0x05, 0x06, 0x07, 0x08, 0x09, 0x0A, 0x10, 0x11] ∨
      (r.cmd.toNat % 2 ^ 8 ∉ [0x02, 0x05, 0x11] ∧ r.cmd.toNat / 2 ^ 8 % 2 ^ 8 ≠ 0)) →
    step s = .next { s with
      pending := rest, latches := Config.undefinedLatches s.undefIndex, undefIndex := s.undefIndex + 1,
      out := s.out ++ [.response (.error (.illegalCommand r.cmd))] }

/-- FRAME or TS_HIT with a MODE outside 0x00 and 0x01 raises `ERR_UNSUPPORTED_MODE` from command decode, with the mode
as info, whatever its operands (42_frame.md R109, 43_acceptance_timestamps.md R122). That the port stays, since no operand
is read, is log entry 10; that the latches take the operation's free value is log entry 6. -/
def Obligations.UnsupportedCommandModesAreRejected : Prop :=
  ∀ (s : State) (r : Request) (rest : List Request), s.pending = r :: rest →
    r.cmd.toNat / 2 ^ 16 = 0 → r.cmd.toNat % 2 ^ 8 ∈ [0x02, 0x05] → 2 ≤ r.cmd.toNat / 2 ^ 8 % 2 ^ 8 →
    step s = .next { s with
      pending := rest, latches := Config.undefinedLatches s.undefIndex, undefIndex := s.undefIndex + 1,
      out := s.out ++ [.response (.error (.unsupportedMode (BitVec.ofNat 8 (r.cmd.toNat / 2 ^ 8))))] }

/-- Decode and encode agree on every 32-bit word and every instruction (R60, R62, R63): a word decodes to `i`
exactly when it is the word of `i`. No bit of the encoding is dropped, and no other word means `i`. -/
def Obligations.CommandCodecAgrees : Prop :=
  ∀ (w : Word) (i : Instr), decodeWord w = .ok i ↔ i.wellFormed = true ∧ w = encode i

/-- The command words of the fixed mnemonics decode as 30_encoding.md (R63, R78) says. -/
def Obligations.FixedCommandWordsDecode : Prop :=
  decodeWord 0x00000001 = .ok .hdr ∧ decodeWord 0x00000002 = .ok .frameTot ∧
  decodeWord 0x00000102 = .ok .frameToa ∧ decodeWord 0x00000003 = .ok .accept ∧
  decodeWord 0x00000004 = .ok .tsFrame ∧ decodeWord 0x00000005 = .ok .tsHitTot ∧
  decodeWord 0x00000105 = .ok .tsHitToa ∧ decodeWord 0x00000006 = .ok .filter ∧
  decodeWord 0x00000007 = .ok .convert ∧ decodeWord 0x00000008 = .ok .recValue ∧
  decodeWord 0x00000009 = .ok .recMode ∧ decodeWord 0x0000000A = .ok .recArrival ∧
  decodeWord 0x00000010 = .ok .cfgPlaneId ∧
  ∀ v : BitVec 8, decodeWord ((0 : BitVec 16) ++ v ++ (0x11 : BitVec 8)) = .ok (.cfgAcqMode v)

/-- Every assembly line, the pseudo-instructions included, is one command that decodes to the line's operation, or to the
error 30_encoding.md (R76, R77) gives it: `frame.mode` and `ts.hit.mode` are the two operations of FRAME and of TS_HIT for
the modes 0x00 and 0x01, and `ERR_UNSUPPORTED_MODE` with the mode for every other. -/
def Obligations.AssemblyLinesDecode : Prop :=
  ∀ (order : ByteOrder) (others : Operands),
    let decoded (l : AsmLine) : Except HardError Instr := decodeWord (l.request order others).cmd
    (∀ l : AsmLine, decoded l = l.operation) ∧
    ∀ (payload : List Word) (startPs endPs : Picos) (arrival : Nat),
      decoded (.frameMode 0x00 payload) = .ok .frameTot ∧ decoded (.frameMode 0x01 payload) = .ok .frameToa ∧
      decoded (.tsHitMode 0x00 startPs endPs arrival) = .ok .tsHitTot ∧
      decoded (.tsHitMode 0x01 startPs endPs arrival) = .ok .tsHitToa ∧
      ∀ m : ModeByte, 2 ≤ m.toNat →
        decoded (.frameMode m payload) = .error (.unsupportedMode m) ∧
        decoded (.tsHitMode m startPs endPs arrival) = .error (.unsupportedMode m)

/-- With no request pending the block waits for one (R167): the step changes nothing. That waiting is a step is the
model's reading (log entry 3). -/
def Obligations.EmptyQueueWaits : Prop :=
  ∀ s : State, s.pending = [] → step s = .next s

/-- Every step of every state answers a next state, never a fault and never a refusal (R146, R157, R178): every
operation completes, and the block takes the next request whatever the outcome was. -/
def Obligations.EveryStepAnswersNext : Prop :=
  ∀ s : State, ∃ t : State, step s = .next t

/-- One request gives exactly one response, and it is the last output of its operation (R26, R52): the request leaves
the queue, and before the response stands at most one other output. -/
def Obligations.OneResponsePerRequest : Prop :=
  ∀ (s t : State) (r : Request) (rest : List Request), s.pending = r :: rest → step s = .next t →
    t.pending = rest ∧ t.params = s.params ∧
    ∃ (before : List Output) (resp : Response), before.length ≤ 1 ∧
      (∀ o ∈ before, ∀ x, o ≠ .response x) ∧ t.out = s.out ++ before ++ [.response resp]

/-- A request that arrives goes behind those already pending (10_state.md R22): the step of the request in front is the
same with it waiting as without it, and when all those before it have been taken it is the one that is left. -/
def Obligations.RequestsArriveBehindThosePending : Prop :=
  ∀ (s : State) (r : Request),
    s.issue r = { s with pending := s.pending ++ [r] } ∧
    (s.pending ≠ [] → ∀ t : State, step s = .next t → step (s.issue r) = .next (t.issue r)) ∧
    ∀ t : State, runSteps s.pending.length s = .next t →
      runSteps s.pending.length (s.issue r) = .next (t.issue r) ∧ (t.issue r).pending = [r]

/-! ## The header extractor -/

/-- HDR (41_header.md R96): fewer than 6 words raise `ERR_HEADER_TRUNCATED` with the length; 6 or more give the FrameHeader of
the first six words under `P_HDR_LAYOUT`, whatever its values. That it also stands in the header latch is the
model's reading of R21 (log entry 12). -/
def Obligations.HdrDecodesTheHeader : Prop :=
  decodeWord 0x00000001 = .ok .hdr ∧ ∀ s : State,
    (s.port.words.length < 6 →
      exec .hdr s = .next { s with
        out := s.out ++ [.response (.error (.headerTruncated s.port.words.length))] }) ∧
    (6 ≤ s.port.words.length →
      let ws := s.port.words.take 6
      let H : FrameHeader :=
        { triggerTimestamp := s.params.hdr.trig.value ws
          shutterOpen := s.params.hdr.opening.value ws
          shutterClose := s.params.hdr.closing.value ws
          frameId := s.params.hdr.fid.value ws
          length := s.params.hdr.len.value ws
          t0Flag := decide (s.params.hdr.t0.value ws = 1) }
      exec .hdr s = .next { s with
        latches := { s.latches with header := H }, out := s.out ++ [.response (.ok (.header H))] })

/-- The round-trip law of the header, which the spec states in 41_header.md R99 and marks as its own inference, for every
lawful layout: HDR of `enc(h)` returns `h` for every header whose numeric fields fit their widths. -/
def Obligations.HeaderRoundTrips : Prop :=
  ∀ (s : State) (h : FrameHeader), s.params.hdr.lawful = true → h.fits s.params = true →
    s.port.words = s.params.hdr.encode h →
    exec .hdr s = .next { s with
      latches := { s.latches with header := h }, out := s.out ++ [.response (.ok (.header h))] }

/-- What 41_header.md (R94, R95) gives together: every numeric field HDR returns fits its field map's width, and under a
lawful layout 64 bits. -/
def Obligations.DecodedHeaderFitsItsWidths : Prop :=
  ∀ (p : Params) (ws : List Word), (p.hdr.decode ws).fits p = true ∧
    (p.hdr.lawful = true → (p.hdr.decode ws).triggerTimestamp < 2 ^ 64 ∧
      (p.hdr.decode ws).shutterOpen < 2 ^ 64 ∧ (p.hdr.decode ws).shutterClose < 2 ^ 64 ∧
      (p.hdr.decode ws).frameId < 2 ^ 64 ∧ (p.hdr.decode ws).length < 2 ^ 64)

/-- R74: a bit that no slice of the active layout names changes no decoded field: two units (or headers) that agree
on every assigned bit decode alike, whatever their other bits. The encoder writes such a bit as 0. -/
def Obligations.UnassignedBitsAreIgnored : Prop :=
  ∀ (p : Params) (m : AcqMode) (k : Nat) (ws vs : List Word), p.lawful = true →
    ((∀ c ∈ p.hdr.slices, ∀ b, c.lo ≤ b → b ≤ c.hi →
        (ws.getD c.word 0).getLsbD b = (vs.getD c.word 0).getLsbD b) →
      p.hdr.decode ws = p.hdr.decode vs) ∧
    ((∀ c ∈ p.unitSlices m, ∀ b, c.lo ≤ b → b ≤ c.hi →
        (ws.getD c.word 0).getLsbD b = (vs.getD c.word 0).getLsbD b) →
      p.decodeUnit m k ws = p.decodeUnit m k vs) ∧
    ∀ w b,
      ((∀ c ∈ p.hdr.slices, ¬(c.word = w ∧ c.lo ≤ b ∧ b ≤ c.hi)) →
        ∀ h : FrameHeader, ((p.hdr.encode h).getD w 0).getLsbD b = false) ∧
      ((∀ c ∈ p.unitSlices m, ¬(c.word = w ∧ c.lo ≤ b ∧ b ≤ c.hi)) →
        ∀ (addr : PixelAddress) (tot arrival : Nat),
          ((p.encodeUnit m addr tot arrival).getD w 0).getLsbD b = false)

/-! ## Byte blocks -/

/-- R42: a byte block of a length that is a multiple of 4 becomes a quarter as many words, and word `i` is made of
bytes `4i .. 4i+3` in `P_BYTE_ORDER`. -/
def Obligations.BytesAssembleInByteOrder : Prop :=
  ∀ (bytes : List Byte), bytes.length % 4 = 0 → ∀ order : ByteOrder,
    (assemble order bytes).length = bytes.length / 4 ∧
    ∀ i, i < bytes.length / 4 →
      let b (j : Nat) : Nat := (bytes.getD (4 * i + j) 0).toNat
      ((assemble order bytes).getD i 0).toNat =
        match order with
        | .little => b 3 * 2 ^ 24 + b 2 * 2 ^ 16 + b 1 * 2 ^ 8 + b 0
        | .big => b 0 * 2 ^ 24 + b 1 * 2 ^ 16 + b 2 * 2 ^ 8 + b 3

/-- The shorthand of R76: the block of a word buffer assembles back to it, in either byte order. -/
def Obligations.BlockOfWordsRoundTrips : Prop :=
  ∀ (order : ByteOrder) (words : List Word),
    assemble order (blockOfWords order words) = words ∧
    (blockOfWords order words).length = 4 * words.length

/-! ## The pixel record unpacker -/

/-- FRAME.TOT (42_frame.md R107): a payload that is no whole number of units raises `ERR_PAYLOAD_LENGTH`; the first unit whose
address is out of range raises `ERR_ADDRESS_RANGE`; else every unit's record is returned, in payload order, with
nothing filtered and nothing dropped. Neither error returns a record. What the cursor and the record buffer hold at
the end is the model's reading of R21 and R23 (log entry 12). -/
def Obligations.FrameTotUnpacks : Prop :=
  decodeWord 0x00000002 = .ok .frameTot ∧ ∀ s : State,
    let L := s.params.unitWordsTot
    let n := s.port.payload.length
    let unit (k : Nat) : List Word := (s.port.payload.drop (k * L)).take L
    let addr (k : Nat) : PixelAddress := s.params.unitTot.addr.address k (unit k)
    (n % L ≠ 0 → exec .frameTot s = .next { s with
      out := s.out ++ [.response (.error (.payloadLength n L 0x00))] }) ∧
    (∀ k, n % L = 0 → k < n / L → (∀ j, j < k → (addr j).col < 64 ∧ (addr j).row < 16) →
      ¬((addr k).col < 64 ∧ (addr k).row < 16) →
      ∃ l : Latches, exec .frameTot s = .next { s with
        latches := l, out := s.out ++ [.response (.error (.addressRange k (addr k).col (addr k).row))] }) ∧
    (n % L = 0 → (∀ j, j < n / L → (addr j).col < 64 ∧ (addr j).row < 16) →
      let recs := (List.range (n / L)).map fun k => PixelRecord.tot (addr k) (s.params.unitTot.tot.value (unit k))
      exec .frameTot s = .next { s with
        latches := { s.latches with cursor := n / L, recs := recs },
        out := s.out ++ [.response (.ok (.records recs))] })

/-- FRAME.TOA (42_frame.md R108): as FRAME.TOT, with the mode-0x01 layout and the arrival field; the latches as there (log entry 12). -/
def Obligations.FrameToaUnpacks : Prop :=
  decodeWord 0x00000102 = .ok .frameToa ∧ ∀ s : State,
    let L := s.params.unitWordsToa
    let n := s.port.payload.length
    let unit (k : Nat) : List Word := (s.port.payload.drop (k * L)).take L
    let addr (k : Nat) : PixelAddress := s.params.unitToa.addr.address k (unit k)
    (n % L ≠ 0 → exec .frameToa s = .next { s with
      out := s.out ++ [.response (.error (.payloadLength n L 0x01))] }) ∧
    (∀ k, n % L = 0 → k < n / L → (∀ j, j < k → (addr j).col < 64 ∧ (addr j).row < 16) →
      ¬((addr k).col < 64 ∧ (addr k).row < 16) →
      ∃ l : Latches, exec .frameToa s = .next { s with
        latches := l, out := s.out ++ [.response (.error (.addressRange k (addr k).col (addr k).row))] }) ∧
    (n % L = 0 → (∀ j, j < n / L → (addr j).col < 64 ∧ (addr j).row < 16) →
      let recs := (List.range (n / L)).map fun k =>
        PixelRecord.toa (addr k) (s.params.unitToa.tot.value (unit k)) (s.params.arrivalMap.value (unit k))
      exec .frameToa s = .next { s with
        latches := { s.latches with cursor := n / L, recs := recs },
        out := s.out ++ [.response (.ok (.records recs))] })

/-- Under the reference unit layouts no address is ever out of range (42_frame.md R106 marks this as the spec's own
inference): FRAME.TOT on any payload, and
FRAME.TOA on any payload of even length, returns records, one for each unit. -/
def Obligations.ReferenceUnitsNeverOutOfRange : Prop :=
  ∀ s : State, s.params.unitTot = UnitLayout.reference → s.params.unitToa = UnitLayout.reference →
    s.params.unitWordsTot = 1 → s.params.unitWordsToa = 2 →
    (∃ (l : Latches) (recs : List PixelRecord), recs.length = s.port.payload.length ∧
      exec .frameTot s = .next { s with latches := l, out := s.out ++ [.response (.ok (.records recs))] }) ∧
    (s.port.payload.length % 2 = 0 → ∃ (l : Latches) (recs : List PixelRecord),
      recs.length = s.port.payload.length / 2 ∧
      exec .frameToa s = .next { s with latches := l, out := s.out ++ [.response (.ok (.records recs))] })

/-- Under positional addressing the address of unit `k` is out of range exactly from `k = 1024` on (R106, R73), in
either order, and below it no two units share an address. -/
def Obligations.PositionalAddressesCoverTheMatrix : Prop :=
  ∀ (order : PositionalOrder) (k : Nat) (u : List Word),
    ((((AddrSource.positional order).address k u).col < 64 ∧ ((AddrSource.positional order).address k u).row < 16)
      ↔ k < 1024) ∧
    ∀ (j : Nat) (v : List Word),
      (AddrSource.positional order).address k u = (AddrSource.positional order).address j v → k = j

/-- FRAME recovers the records that were written: for every lawful layout with explicit addresses, a payload made of
the units of fitting records of the mode gives back exactly those records, in order, duplicates included (R104,
R105, R107, R108, R110). -/
def Obligations.FrameRoundTrips : Prop :=
  ∀ (s : State) (px : List (PixelAddress × Nat × Nat)), s.params.lawful = true →
    ((∃ c r, s.params.unitTot.addr = .explicit c r) →
      (∀ x ∈ px, PixelRecord.fits s.params (.tot x.1 x.2.1) = true ∧
        ∀ c r, s.params.unitTot.addr = .explicit c r → x.1.col < 2 ^ c.width ∧ x.1.row < 2 ^ r.width) →
      s.port.payload = px.flatMap (fun x => s.params.encodeUnit .totOnly x.1 x.2.1 x.2.2) →
      ∃ l : Latches, exec .frameTot s = .next { s with
        latches := l, out := s.out ++ [.response (.ok (.records (px.map fun x => .tot x.1 x.2.1)))] }) ∧
    ((∃ c r, s.params.unitToa.addr = .explicit c r) →
      (∀ x ∈ px, PixelRecord.fits s.params (.toa x.1 x.2.1 x.2.2) = true ∧
        ∀ c r, s.params.unitToa.addr = .explicit c r → x.1.col < 2 ^ c.width ∧ x.1.row < 2 ^ r.width) →
      s.port.payload = px.flatMap (fun x => s.params.encodeUnit .totToa x.1 x.2.1 x.2.2) →
      ∃ l : Latches, exec .frameToa s = .next { s with
        latches := l, out := s.out ++ [.response (.ok (.records (px.map fun x => .toa x.1 x.2.1 x.2.2)))] })

/-! ## The timestamp validator -/

/-- R116, ACCEPT: the verdict is the result, the T0 test first, then the shutter order; equal timestamps are accepted.
The verdicts are the numbers 0, 1 and 2. -/
def Obligations.AcceptAppliesThePolicy : Prop :=
  decodeWord 0x00000003 = .ok .accept ∧
  Verdict.accepted.code = 0 ∧ Verdict.rejectNotSynced.code = 1 ∧ Verdict.rejectShutterOrder.code = 2 ∧ ∀ s : State,
    exec .accept s = .next { s with out := s.out ++ [.response (.ok (.verdict
      (if s.port.h.t0Flag = false then .rejectNotSynced
       else if s.port.h.shutterClose < s.port.h.shutterOpen then .rejectShutterOrder
       else .accepted)))] }

/-- TS_FRAME (43_acceptance_timestamps.md R117 and R119) under both range policies (R118): the two counters times 10000, exact under `fault` and reduced
mod 2^64 under `wrap64`; under `fault` a product of 2^64 or more raises `ERR_TIMESTAMP_RANGE` with the tick, the
open timestamp checked first. What the frame time latches hold is the model's reading of R21 (log entry 12). -/
def Obligations.TsFrameConvertsTicks : Prop :=
  decodeWord 0x00000004 = .ok .tsFrame ∧ ∀ s : State,
    let opening := s.port.h.shutterOpen
    let closing := s.port.h.shutterClose
    (s.params.tsOverflow = .fault → 2 ^ 64 ≤ opening * 10000 →
      ∃ l : Latches, exec .tsFrame s = .next { s with
        latches := l, out := s.out ++ [.response (.error (.timestampRangeTick opening))] }) ∧
    (s.params.tsOverflow = .fault → opening * 10000 < 2 ^ 64 → 2 ^ 64 ≤ closing * 10000 →
      ∃ l : Latches, exec .tsFrame s = .next { s with
        latches := l, out := s.out ++ [.response (.error (.timestampRangeTick closing))] }) ∧
    (s.params.tsOverflow = .wrap64 ∨ (opening * 10000 < 2 ^ 64 ∧ closing * 10000 < 2 ^ 64) →
      ∃ a b : Picos, a.toNat = opening * 10000 % 2 ^ 64 ∧ b.toNat = closing * 10000 % 2 ^ 64 ∧
        exec .tsFrame s = .next { s with
          latches := { s.latches with frameStartPs := a, frameEndPs := b },
          out := s.out ++ [.response (.ok (.frameTimes a b))] })

/-- TS_FRAME cannot leave range when `W_OPEN` and `W_CLOSE` are at most 50 and the header fits its widths
(43_acceptance_timestamps.md R119 marks this as the spec's own inference). -/
def Obligations.NarrowCountersNeverOverflow : Prop :=
  ∀ s : State, s.port.h.fits s.params = true → s.params.hdr.opening.width ≤ 50 → s.params.hdr.closing.width ≤ 50 →
    ∃ (l : Latches) (a b : Picos), a.toNat = s.port.h.shutterOpen * 10000 ∧ b.toNat = s.port.h.shutterClose * 10000 ∧
      exec .tsFrame s = .next { s with latches := l, out := s.out ++ [.response (.ok (.frameTimes a b))] }

/-- R120, TS_HIT.TOT: always OK, the floored midpoint of the exact sum under `fault`, of the sum mod 2^64 under
`wrap64` (R118). The order of the operands is not checked. -/
def Obligations.TsHitTotIsTheMidpoint : Prop :=
  decodeWord 0x00000005 = .ok .tsHitTot ∧ ∀ s : State, ∃ t : Picos,
    t.toNat = (match s.params.tsOverflow with
      | .fault => (s.port.startPs.toNat + s.port.endPs.toNat) / 2
      | .wrap64 => (s.port.startPs.toNat + s.port.endPs.toNat) % 2 ^ 64 / 2) ∧
    exec .tsHitTot s = .next { s with out := s.out ++ [.response (.ok (.timestamp t))] }

/-- For frame times of TS_FRAME without wrapping, the ToT midpoint is exact (43_acceptance_timestamps.md R123 marks this
as the spec's own inference): start `a*10000` and end `b*10000`
give `(a+b)*5000`, under `fault`. -/
def Obligations.FrameTimesHaveExactMidpoint : Prop :=
  ∀ (s : State) (a b : Nat), s.params.tsOverflow = .fault →
    s.port.startPs.toNat = a * 10000 → s.port.endPs.toNat = b * 10000 →
    ∃ t : Picos, t.toNat = (a + b) * 5000 ∧
      exec .tsHitTot s = .next { s with out := s.out ++ [.response (.ok (.timestamp t))] }

/-- R121, TS_HIT.TOA, under both range policies (R118): the end time minus `arrival*10000`; under `fault` a larger
product raises `ERR_TIMESTAMP_RANGE` with both operands, under `wrap64` the difference is taken mod 2^64. -/
def Obligations.TsHitToaSubtractsTheArrival : Prop :=
  decodeWord 0x00000105 = .ok .tsHitToa ∧ ∀ s : State,
    let d := s.port.arrival * 10000
    (s.params.tsOverflow = .fault → s.port.endPs.toNat < d →
      exec .tsHitToa s = .next { s with
        out := s.out ++ [.response (.error (.timestampRangeHit s.port.endPs s.port.arrival))] }) ∧
    (s.params.tsOverflow = .fault → d ≤ s.port.endPs.toNat →
      ∃ t : Picos, t.toNat = s.port.endPs.toNat - d ∧
        exec .tsHitToa s = .next { s with out := s.out ++ [.response (.ok (.timestamp t))] }) ∧
    (s.params.tsOverflow = .wrap64 →
      ∃ t : Picos, t.toNat = (s.port.endPs.toNat + (2 ^ 64 - d % 2 ^ 64)) % 2 ^ 64 ∧
        exec .tsHitToa s = .next { s with out := s.out ++ [.response (.ok (.timestamp t))] })

/-- For a fixed end time, TS_HIT.TOA is strictly decreasing in the arrival wherever it returns OK under `fault`
(43_acceptance_timestamps.md R124 marks this as the spec's own inference). -/
def Obligations.ToaTimesStrictlyDecrease : Prop :=
  ∀ (s s' t t' : State) (x x' : Picos), s.params.tsOverflow = .fault → s'.params.tsOverflow = .fault →
    s.port.endPs = s'.port.endPs → s.port.arrival < s'.port.arrival →
    exec .tsHitToa s = .next t → t.out = s.out ++ [.response (.ok (.timestamp x))] →
    exec .tsHitToa s' = .next t' → t'.out = s'.out ++ [.response (.ok (.timestamp x'))] →
    x'.toNat < x.toNat

/-- R126, FILTER: the records of nonzero magnitude, of either variant, in order and with duplicates. -/
def Obligations.FilterDropsZeroMagnitudes : Prop :=
  decodeWord 0x00000006 = .ok .filter ∧ ∀ s : State,
    exec .filter s = .next { s with out := s.out ++ [.response (.ok (.records
      (s.port.recs.filter fun r => match r with
        | .tot _ v => decide (v ≠ 0)
        | .toa _ v _ => decide (v ≠ 0))))] }

/-! ## The record accessors -/

/-- R86, REC_VALUE: the magnitude of either variant, 0 included. -/
def Obligations.RecValueReturnsMagnitude : Prop :=
  decodeWord 0x00000008 = .ok .recValue ∧ ∀ s : State,
    exec .recValue s = .next { s with out := s.out ++ [.response (.ok (.magnitude
      (match s.port.r with
        | .tot _ v => v
        | .toa _ v _ => v)))] }

/-- R87, REC_MODE: 0x00 for a ToT record, 0x01 for a ToA record. -/
def Obligations.RecModeReturnsTag : Prop :=
  decodeWord 0x00000009 = .ok .recMode ∧ ∀ s : State,
    exec .recMode s = .next { s with out := s.out ++ [.response (.ok (.mode
      (match s.port.r with
        | .tot _ _ => 0x00
        | .toa _ _ _ => 0x01)))] }

/-- R88, REC_ARRIVAL: the arrival of a ToA record; `ERR_FIELD_ACCESS`, and no sentinel, for a ToT record. -/
def Obligations.RecArrivalReturnsCounter : Prop :=
  decodeWord 0x0000000A = .ok .recArrival ∧ ∀ s : State,
    exec .recArrival s = .next { s with out := s.out ++ [.response
      (match s.port.r with
        | .tot _ _ => .error (.fieldAccess 0x00 .arrival)
        | .toa _ _ a => .ok (.arrival a))] }

/-! ## The configuration registers -/

/-- R141, CFG_PLANE_ID: the register takes the operand, whatever its value, and the response has no value. The value
takes effect at the next CONVERT: an event it emits, whatever its operands, carries it. -/
def Obligations.CfgPlaneIdWritesRegister : Prop :=
  decodeWord 0x00000010 = .ok .cfgPlaneId ∧ ∀ s : State,
    exec .cfgPlaneId s = .next { s with planeId := s.port.v, out := s.out ++ [.response (.ok .noValue)] } ∧
    ∀ (t u : State) (o : Operands) (ev : OutEvent) (tail : List Output), exec .cfgPlaneId s = .next t →
      exec .convert { t with port := o } = .next u → u.out = t.out ++ .event ev :: tail →
      ev.plane.planeId = s.port.v

/-- R142, CFG_ACQ_MODE: the register takes the command's MODE field, unsupported values included, and writing the value
already held leaves it. The value takes effect at the next CONVERT, whatever its operands: it answers as it does in the
state whose `cfg.acq_mode` is that value; an accepted frame whose length passes the check gives `ERR_UNSUPPORTED_MODE` with
the value where no mode has it; and an event has the hits of the payload's units decoded under the mode that
has it (R135). -/
def Obligations.CfgAcqModeWritesRegister : Prop :=
  ∀ (s : State) (v : BitVec 8),
    decodeWord ((0 : BitVec 16) ++ v ++ (0x11 : BitVec 8)) = .ok (.cfgAcqMode v) ∧
    exec (.cfgAcqMode v) s = .next { s with acqMode := v, out := s.out ++ [.response (.ok .noValue)] } ∧
    ∀ (t u : State) (o : Operands), exec (.cfgAcqMode v) s = .next t → exec .convert { t with port := o } = .next u →
      (∃ (u' : State) (new : List Output), exec .convert { s with port := o, acqMode := v } = .next u' ∧
        u.out = t.out ++ new ∧ u'.out = s.out ++ new) ∧
      ∀ bytes, o.ev.blocks = [bytes] →
        let words := assemble s.params.byteOrder bytes
        let H := s.params.hdr.decode (words.take 6)
        let payload := words.drop 6
        (bytes.length % 4 = 0 → 24 ≤ bytes.length → H.t0Flag = true → H.shutterOpen ≤ H.shutterClose →
          (s.params.lengthCheck = .requireEqual → H.length = payload.length) → 2 ≤ v.toNat →
          u.out = t.out ++ [.response (.error (.unsupportedMode v))]) ∧
        ∀ ev tail, u.out = t.out ++ .event ev :: tail → ∃ m : AcqMode, v = m.byte ∧
          let L := s.params.unitWords m
          let recs := (List.range (payload.length / L)).map fun k =>
            s.params.decodeUnit m k ((payload.drop (k * L)).take L)
          ev.plane.hits.map (fun hit => (hit.col.toNat, hit.row.toNat, hit.tot)) =
            (recs.filter fun x => x.magnitude ≠ 0).map fun x => (x.addr.col, x.addr.row, x.magnitude)

/-- The configuration registers have exactly two writers and one reader (R25): an operation that changes
`cfg.plane_id` is CFG_PLANE_ID, one that changes `cfg.acq_mode` is CFG_ACQ_MODE, and the outputs of every operation
other than CONVERT are the same whatever the registers hold. -/
def Obligations.OnlyCfgWritesAndConvertReads : Prop :=
  ∀ (i : Instr) (s t : State), exec i s = .next t →
    (t.planeId ≠ s.planeId → i = .cfgPlaneId) ∧
    (t.acqMode ≠ s.acqMode → ∃ v, i = .cfgAcqMode v) ∧
    (i ≠ .convert → ∀ (a : BitVec 32) (b : BitVec 8),
      ∃ t' : State, exec i { s with planeId := a, acqMode := b } = .next t' ∧ t'.out = t.out ∧
        t'.latches = t.latches)

/-! ## The conversion sequencer -/

/-- R148 and R43, CONVERT of a malformed event: a wrong block count, a byte length that is no multiple of 4, and
fewer than 6 words, in this order, each send one WARNING record and give `SKIP_MALFORMED` with the reason and the
count, and nothing else changes: no event, no fault. The reasons' sub-codes are 1, 2 and 3. -/
def Obligations.ConvertSkipsMalformedEvents : Prop :=
  MalformedReason.blockCount.subCode = 1 ∧ MalformedReason.byteLength.subCode = 2 ∧
  MalformedReason.truncatedHeader.subCode = 3 ∧ ∀ s : State,
    (s.port.ev.blocks.length ≠ 1 →
      exec .convert s = .next { s with out := s.out ++
        [.diag ⟨.warning, 0x01, .malformed .blockCount⟩,
          .response (.skip (.malformed .blockCount s.port.ev.blocks.length))] }) ∧
    (∀ bytes, s.port.ev.blocks = [bytes] → bytes.length % 4 ≠ 0 →
      exec .convert s = .next { s with out := s.out ++
        [.diag ⟨.warning, 0x01, .malformed .byteLength⟩,
          .response (.skip (.malformed .byteLength bytes.length))] }) ∧
    (∀ bytes, s.port.ev.blocks = [bytes] → bytes.length % 4 = 0 → bytes.length < 24 →
      exec .convert s = .next { s with out := s.out ++
        [.diag ⟨.warning, 0x01, .malformed .truncatedHeader⟩,
          .response (.skip (.malformed .truncatedHeader (bytes.length / 4)))] })

/-- CONVERT of a frame that ACCEPT rejects (60_exceptions.md R149): a skip with one DEBUG record, whatever the payload, the
configured mode, the byte order and the length check, and no event. That the header latch then holds the frame's header is
the model's reading of R21 (log entry 12); that the record's reason is the name R133's `diag` carries is log entry 16. -/
def Obligations.ConvertSkipsRejectedFrames : Prop :=
  ∀ (s : State) (bytes : List Byte), s.port.ev.blocks = [bytes] → bytes.length % 4 = 0 → 24 ≤ bytes.length →
    let H := s.params.hdr.decode ((assemble s.params.byteOrder bytes).take 6)
    (H.t0Flag = false →
      exec .convert s = .next { s with
        latches := { s.latches with header := H },
        out := s.out ++ [.diag ⟨.debug, 0x02, .notSynced⟩, .response (.skip (.notSynced H.frameId))] }) ∧
    (H.t0Flag = true → H.shutterClose < H.shutterOpen →
      exec .convert s = .next { s with
        latches := { s.latches with header := H },
        out := s.out ++ [.diag ⟨.debug, 0x03, .shutterOrder⟩,
          .response (.skip (.shutterOrder H.shutterOpen H.shutterClose))] })

/-- CONVERT in ToT-only mode (R133, R136, R137, R139): an accepted frame whose payload is whole units with addresses in
range, its times within 64 bits where `P_TS_OVERFLOW` is `fault`, and its length passing the check, is CONVERTED. The
event holds one hit for each unit of nonzero magnitude, in payload order, all at the midpoint of the frame (R118), and
the event's tags unchanged; the configuration and every port stay as they were. -/
def Obligations.ConvertConvertsTotFrames : Prop :=
  ∀ (s : State) (bytes : List Byte), s.port.ev.blocks = [bytes] → bytes.length % 4 = 0 → 24 ≤ bytes.length →
    let words := assemble s.params.byteOrder bytes
    let H := s.params.hdr.decode (words.take 6)
    let payload := words.drop 6
    let L := s.params.unitWordsTot
    let unit (k : Nat) : List Word := (payload.drop (k * L)).take L
    let addr (k : Nat) : PixelAddress := s.params.unitTot.addr.address k (unit k)
    let tot (k : Nat) : Nat := s.params.unitTot.tot.value (unit k)
    H.t0Flag = true → H.shutterOpen ≤ H.shutterClose →
    (s.params.lengthCheck = .requireEqual → H.length = payload.length) →
    s.acqMode = 0x00 → payload.length % L = 0 →
    (∀ j, j < payload.length / L → (addr j).col < 64 ∧ (addr j).row < 16) →
    (s.params.tsOverflow = .fault → H.shutterClose * 10000 < 2 ^ 64) →
    let a : Picos := BitVec.ofNat 64 (H.shutterOpen * 10000)
    let b : Picos := BitVec.ofNat 64 (H.shutterClose * 10000)
    ∃ l : Latches, exec .convert s = .next { s with
      latches := l
      out := s.out ++ [
        .event {
          plane := {
            planeId := s.planeId, sensorType := s.params.sensorType, cols := 64, rows := 16
            hits := ((List.range (payload.length / L)).filter fun k => tot k ≠ 0).map fun k =>
              { col := BitVec.ofNat 6 (addr k).col, row := BitVec.ofNat 4 (addr k).row, tot := tot k
                timestampPs := match s.params.tsOverflow with
                  | .fault => BitVec.ofNat 64 ((H.shutterOpen + H.shutterClose) * 5000)
                  | .wrap64 => BitVec.ofNat 64 ((a.toNat + b.toNat) % 2 ^ 64 / 2) } }
          frameStartPs := a
          frameEndPs := b
          sequenceNumber := BitVec.ofNat 64 H.frameId
          detectorType := s.params.detectorType
          tags := s.port.ev.tags },
        .response (.ok .converted)] }

/-- CONVERT in ToT+ToA mode (R133, R136, R137, R139): as in ToT-only mode, with each hit at the frame end minus its
arrival. Under `fault` the arrivals of the units of nonzero magnitude, and only those, must be within the frame end
(R136); under `wrap64` the times are taken mod 2^64 (R118). -/
def Obligations.ConvertConvertsToaFrames : Prop :=
  ∀ (s : State) (bytes : List Byte), s.port.ev.blocks = [bytes] → bytes.length % 4 = 0 → 24 ≤ bytes.length →
    let words := assemble s.params.byteOrder bytes
    let H := s.params.hdr.decode (words.take 6)
    let payload := words.drop 6
    let L := s.params.unitWordsToa
    let unit (k : Nat) : List Word := (payload.drop (k * L)).take L
    let addr (k : Nat) : PixelAddress := s.params.unitToa.addr.address k (unit k)
    let tot (k : Nat) : Nat := s.params.unitToa.tot.value (unit k)
    let arrival (k : Nat) : Nat := s.params.arrivalMap.value (unit k)
    H.t0Flag = true → H.shutterOpen ≤ H.shutterClose →
    (s.params.lengthCheck = .requireEqual → H.length = payload.length) →
    s.acqMode = 0x01 → payload.length % L = 0 →
    (∀ j, j < payload.length / L → (addr j).col < 64 ∧ (addr j).row < 16) →
    (s.params.tsOverflow = .fault → H.shutterClose * 10000 < 2 ^ 64) →
    (s.params.tsOverflow = .fault → ∀ j, j < payload.length / L → tot j ≠ 0 → arrival j ≤ H.shutterClose) →
    let a : Picos := BitVec.ofNat 64 (H.shutterOpen * 10000)
    let b : Picos := BitVec.ofNat 64 (H.shutterClose * 10000)
    ∃ l : Latches, exec .convert s = .next { s with
      latches := l
      out := s.out ++ [
        .event {
          plane := {
            planeId := s.planeId, sensorType := s.params.sensorType, cols := 64, rows := 16
            hits := ((List.range (payload.length / L)).filter fun k => tot k ≠ 0).map fun k =>
              { col := BitVec.ofNat 6 (addr k).col, row := BitVec.ofNat 4 (addr k).row, tot := tot k
                timestampPs := match s.params.tsOverflow with
                  | .fault => BitVec.ofNat 64 (H.shutterClose * 10000 - arrival k * 10000)
                  | .wrap64 => b - BitVec.ofNat 64 (arrival k * 10000) } }
          frameStartPs := a
          frameEndPs := b
          sequenceNumber := BitVec.ofNat 64 H.frameId
          detectorType := s.params.detectorType
          tags := s.port.ev.tags },
        .response (.ok .converted)] }

/-- CONVERT reports the first hard error in the order of R152 for an accepted frame: the declared length, then the
configured mode, then the payload length, with no event, no diagnostic record and the configuration unchanged. -/
def Obligations.ConvertReportsErrorsInOrder : Prop :=
  ∀ (s : State) (bytes : List Byte), s.port.ev.blocks = [bytes] → bytes.length % 4 = 0 → 24 ≤ bytes.length →
    let words := assemble s.params.byteOrder bytes
    let H := s.params.hdr.decode (words.take 6)
    let n := (words.drop 6).length
    H.t0Flag = true → H.shutterOpen ≤ H.shutterClose →
    (s.params.lengthCheck = .requireEqual → H.length ≠ n →
      ∃ l : Latches, exec .convert s = .next { s with
        latches := l, out := s.out ++ [.response (.error (.declaredLength H.length n))] }) ∧
    ((s.params.lengthCheck = .ignore ∨ H.length = n) →
      (2 ≤ s.acqMode.toNat →
        ∃ l : Latches, exec .convert s = .next { s with
          latches := l, out := s.out ++ [.response (.error (.unsupportedMode s.acqMode))] }) ∧
      (s.acqMode = 0x00 → n % s.params.unitWordsTot ≠ 0 →
        ∃ l : Latches, exec .convert s = .next { s with
          latches := l, out := s.out ++ [.response (.error (.payloadLength n s.params.unitWordsTot 0x00))] }) ∧
      (s.acqMode = 0x01 → n % s.params.unitWordsToa ≠ 0 →
        ∃ l : Latches, exec .convert s = .next { s with
          latches := l, out := s.out ++ [.response (.error (.payloadLength n s.params.unitWordsToa 0x01))] }))

/-- CONVERT is the source's caller flow in one operation (R132, R133, R176): if HDR, ACCEPT, FRAME of the configured
mode, FILTER, TS_FRAME and TS_HIT of that mode, run as operations of their own on each other's results, all answer
OK, then CONVERT of the event answers CONVERTED and emits the event made of their results. -/
def Obligations.ConvertIsTheCallerFlow : Prop :=
  ∀ (s : State) (m : AcqMode) (bytes : List Byte) (tags : List Tag) (H : FrameHeader)
    (recs kept : List PixelRecord) (a b : Picos) (times : List Picos),
    let o := s.port
    let words := assemble s.params.byteOrder bytes
    let answers (i : Instr) (ops : Operands) (r : Result) : Prop :=
      ∃ t : State, exec i { s with port := ops } = .next t ∧ t.out = s.out ++ [.response (.ok r)]
    s.acqMode = m.byte → bytes.length % 4 = 0 →
    (s.params.lengthCheck = .requireEqual → H.length = (words.drop 6).length) →
    answers .hdr { o with words := words } (.header H) →
    answers .accept { o with h := H } (.verdict .accepted) →
    answers (match m with | .totOnly => .frameTot | .totToa => .frameToa)
      { o with payload := words.drop 6 } (.records recs) →
    answers .filter { o with recs := recs } (.records kept) →
    answers .tsFrame { o with h := H } (.frameTimes a b) →
    List.Forall₂ (fun r t =>
      match r with
      | .tot _ _ => answers .tsHitTot { o with startPs := a, endPs := b } (.timestamp t)
      | .toa _ _ x => answers .tsHitToa { o with endPs := b, arrival := x } (.timestamp t)) kept times →
    ∃ l : Latches, exec .convert { s with port := { o with ev := ⟨[bytes], tags⟩ } } = .next { s with
      port := { o with ev := ⟨[bytes], tags⟩ }
      latches := l
      out := s.out ++ [
        .event {
          plane := {
            planeId := s.planeId, sensorType := s.params.sensorType, cols := 64, rows := 16
            hits := (kept.zip times).map fun x =>
              { col := BitVec.ofNat 6 x.1.addr.col, row := BitVec.ofNat 4 x.1.addr.row, tot := x.1.magnitude
                timestampPs := x.2 } }
          frameStartPs := a
          frameEndPs := b
          sequenceNumber := BitVec.ofNat 64 H.frameId
          detectorType := s.params.detectorType
          tags := tags },
        .response (.ok .converted)] }

/-- Where the caller flow of an accepted frame ends in a hard error, CONVERT ends in the same one (R152, R133): that of
FRAME first, then that of TS_FRAME, then that of the first record, in stream order, whose TS_HIT fails, with no event,
no diagnostic record and the configuration unchanged. -/
def Obligations.ConvertStopsWhereTheCallerFlowStops : Prop :=
  ∀ (s : State) (m : AcqMode) (bytes : List Byte) (tags : List Tag) (H : FrameHeader) (e : HardError),
    let o := s.port
    let words := assemble s.params.byteOrder bytes
    let ends (i : Instr) (ops : Operands) (r : Response) : Prop :=
      ∃ t : State, exec i { s with port := ops } = .next t ∧ t.out = s.out ++ [.response r]
    let frame : Instr := match m with | .totOnly => .frameTot | .totToa => .frameToa
    let hit (a b : Picos) (x : PixelRecord) (r : Response) : Prop :=
      match x with
      | .tot _ _ => ends .tsHitTot { o with startPs := a, endPs := b } r
      | .toa _ _ arrival => ends .tsHitToa { o with endPs := b, arrival := arrival } r
    s.acqMode = m.byte → bytes.length % 4 = 0 →
    (s.params.lengthCheck = .requireEqual → H.length = (words.drop 6).length) →
    ends .hdr { o with words := words } (.ok (.header H)) →
    ends .accept { o with h := H } (.ok (.verdict .accepted)) →
    (ends frame { o with payload := words.drop 6 } (.error e) ∨
      (∃ recs, ends frame { o with payload := words.drop 6 } (.ok (.records recs)) ∧
        ends .tsFrame { o with h := H } (.error e)) ∨
      (∃ recs before x after a b, ends frame { o with payload := words.drop 6 } (.ok (.records recs)) ∧
        ends .filter { o with recs := recs } (.ok (.records (before ++ x :: after))) ∧
        ends .tsFrame { o with h := H } (.ok (.frameTimes a b)) ∧
        (∀ y ∈ before, ∃ t, hit a b y (.ok (.timestamp t))) ∧ hit a b x (.error e))) →
    ∃ l : Latches, exec .convert { s with port := { o with ev := ⟨[bytes], tags⟩ } } = .next { s with
      port := { o with ev := ⟨[bytes], tags⟩ }
      latches := l
      out := s.out ++ [.response (.error e)] }

/-- What every event CONVERT emits keeps, in every state (44_conversion.md R145 marks these as the spec's own
inferences): it is followed by CONVERTED, it carries the
plane id, the geometry and the tags, no hit has magnitude 0, in mode 0x00 every hit is at the midpoint of the frame
times, and in mode 0x01 every hit under `fault` is at or before the frame end by a multiple of 10000. -/
def Obligations.EmittedEventsKeepTheRules : Prop :=
  ∀ (s t : State) (i : Instr) (ev : OutEvent) (tail : List Output), exec i s = .next t →
    t.out = s.out ++ .event ev :: tail →
    i = .convert ∧ tail = [.response (.ok .converted)] ∧
    ev.plane.planeId = s.planeId ∧ ev.plane.cols = 64 ∧ ev.plane.rows = 16 ∧ ev.tags = s.port.ev.tags ∧
    (∀ hit ∈ ev.plane.hits, hit.tot ≠ 0) ∧
    (s.params.tsOverflow = .fault →
      (s.acqMode = 0x00 → ∀ hit ∈ ev.plane.hits,
        hit.timestampPs.toNat = (ev.frameStartPs.toNat + ev.frameEndPs.toNat) / 2) ∧
      (s.acqMode = 0x01 → ∀ hit ∈ ev.plane.hits,
        ∃ arrival : Nat, hit.timestampPs.toNat + arrival * 10000 = ev.frameEndPs.toNat))

/-- From bytes to event (R42, R99, R104, R133): under any lawful parameters with the range policy `fault`, in either mode,
with explicit or positional addresses, in either byte order and under either length check, the block made of an accepted
header and of the units of fitting pixels is CONVERTED to an event whose hits are exactly the pixels of nonzero magnitude,
in order: at the midpoint of the frame in ToT-only mode (R120), and at the frame end minus the arrival in ToT+ToA mode
(R121), where the arrivals of those pixels must be within the frame end. -/
def Obligations.EncodedFramesConvertToTheirPixels : Prop :=
  ∀ (s : State) (m : AcqMode) (h : FrameHeader) (px : List (PixelAddress × Nat × Nat)),
    s.params.lawful = true → s.params.tsOverflow = .fault → s.acqMode = m.byte →
    (s.params.lengthCheck = .requireEqual → h.length = px.length * s.params.unitWords m) →
    h.fits s.params = true → h.t0Flag = true → h.shutterOpen ≤ h.shutterClose → h.shutterClose * 10000 < 2 ^ 64 →
    (∀ k x, px[k]? = some x → (m.record x.1 x.2.1 x.2.2).fits s.params = true ∧
      (s.params.unitLayout m).addr.stores k x.1 = true ∧
      (m = .totToa → x.2.1 ≠ 0 → x.2.2 ≤ h.shutterClose)) →
    s.port.ev.blocks = [blockOfWords s.params.byteOrder
      (s.params.hdr.encode h ++ px.flatMap fun x => s.params.encodeUnit m x.1 x.2.1 x.2.2)] →
    ∃ (l : Latches) (ev : OutEvent), exec .convert s = .next { s with
        latches := l, out := s.out ++ [.event ev, .response (.ok .converted)] } ∧
      ev.frameStartPs.toNat = h.shutterOpen * 10000 ∧ ev.frameEndPs.toNat = h.shutterClose * 10000 ∧
      ev.sequenceNumber.toNat = h.frameId ∧
      ev.plane.hits.map (fun hit => (hit.col.toNat, hit.row.toNat, hit.tot, hit.timestampPs.toNat)) =
        (px.filter fun x => x.2.1 ≠ 0).map fun x => (x.1.col, x.1.row, x.2.1,
          match m with
          | .totOnly => (h.shutterOpen + h.shutterClose) * 5000
          | .totToa => (h.shutterClose - x.2.2) * 10000)

/-! ## Errors, reset and runs -/

/-- R150: a response's code alone says its class: 0x00 is OK, 0x01 to 0x03 are skips and 0x10 to 0x17 are hard errors.
Each outcome has the code that the table of R147 gives its name. -/
def Obligations.StatusCodeTellsTheClass : Prop :=
  ∀ r : Response,
    r.code = (match r with
      | .ok _ => 0x00
      | .skip (.malformed _ _) => 0x01
      | .skip (.notSynced _) => 0x02
      | .skip (.shutterOrder _ _) => 0x03
      | .error (.illegalCommand _) => 0x10
      | .error (.unsupportedMode _) => 0x11
      | .error (.headerTruncated _) => 0x12
      | .error (.payloadLength _ _ _) => 0x13
      | .error (.addressRange _ _ _) => 0x14
      | .error (.timestampRangeTick _) => 0x15
      | .error (.timestampRangeHit _ _) => 0x15
      | .error (.fieldAccess _ _) => 0x16
      | .error (.declaredLength _ _) => 0x17) ∧
    (r.outcomeClass = .ok ↔ r.code = 0x00) ∧
    (r.outcomeClass = .skip ↔ 1 ≤ r.code.toNat ∧ r.code.toNat ≤ 3) ∧
    (r.outcomeClass = .hardError ↔ 0x10 ≤ r.code.toNat ∧ r.code.toNat ≤ 0x17)

/-- R156, a skip or a hard error is all or nothing: an operation that does not end OK changes neither
configuration register, emits no event, returns no result, and touches nothing else but its own latches; only a skip
sends a diagnostic record, and only CONVERT skips. -/
def Obligations.FailedOperationsLeaveNothing : Prop :=
  ∀ (i : Instr) (s t : State) (resp : Response) (before : List Output), exec i s = .next t →
    t.out = s.out ++ before ++ [.response resp] → resp.outcomeClass ≠ .ok →
    { t with latches := s.latches, out := s.out } = s ∧
    (resp.outcomeClass = .hardError → before = []) ∧
    (resp.outcomeClass = .skip → i = .convert ∧ ∃ k : Skip, resp = .skip k ∧ before = [.diag k.diagnostic])

/-- The diagnostic port (60_exceptions.md R160): an operation answers one response, and sends exactly one record before it
where that is a skip, with the skip's code, severity and reason; OK outcomes and hard errors send none. The reasons of the
two DEBUG records are the names that `diag` carries in 44_conversion.md R133, the model's reading (log entry 16). -/
def Obligations.DiagnosticRecordsReportSkips : Prop :=
  ∀ (i : Instr) (s t : State), exec i s = .next t →
    ∃ resp : Response, t.responses = s.responses ++ [resp] ∧
      t.diagnostics = s.diagnostics ++ (match resp with
        | .skip (.malformed reason _) => [⟨.warning, 0x01, .malformed reason⟩]
        | .skip (.notSynced _) => [⟨.debug, 0x02, .notSynced⟩]
        | .skip (.shutterOrder _ _) => [⟨.debug, 0x03, .shutterOrder⟩]
        | .ok _ => []
        | .error _ => []) ∧
      ∀ k : Skip, resp = .skip k → ∃ d : Diagnostic, t.out = s.out ++ [.diag d, .response resp]

/-- R37: after reset `cfg.plane_id` is 0, `cfg.acq_mode` is 0x01, no operation is pending and nothing has been
emitted or answered; a block constructed with any other parameters starts the same way. -/
def Obligations.ResetLeavesDefaults : Prop :=
  State.reset.planeId = 0 ∧ State.reset.acqMode = 0x01 ∧ State.reset.pending = [] ∧ State.reset.out = [] ∧
  ∀ p : Params, (State.construct p).params = p ∧ (State.construct p).planeId = 0 ∧
    (State.construct p).acqMode = 0x01 ∧ (State.construct p).pending = [] ∧ (State.construct p).out = []

/-- A reset input on a live block: the configuration takes its reset values, no request is pending, the parameters
stay, and what was emitted stays emitted (70_reset_and_hazards.md; how the model brings R166 and R168 together is
log entry 13). A reset answers nothing, so by R179 a run ends at it only where it had ended before. -/
def Obligations.LiveResetKeepsEmittedOutputs : Prop :=
  ∀ s : State, s.applyReset.planeId = 0 ∧ s.applyReset.acqMode = 0x01 ∧ s.applyReset.pending = [] ∧
    s.applyReset.params = s.params ∧ s.applyReset.out = s.out ∧ s.applyReset.events = s.events ∧
    s.applyReset.observation = s.observation ∧ (s.applyReset.ended = true ↔ s.ended = true)

/-- The block has no hidden state (10_state.md R35 marks this as the spec's own inference). Two blocks with equal parameters and equal configuration, whatever ran before
(latches, earlier outputs, port, later requests), answer an equal next request with the same outputs, and their
configurations stay equal. -/
def Obligations.EqualRequestsGiveEqualOutputs : Prop :=
  ∀ (s s' t t' : State) (r : Request) (rest rest' : List Request),
    s.params = s'.params → s.planeId = s'.planeId → s.acqMode = s'.acqMode →
    s.pending = r :: rest → s'.pending = r :: rest' → step s = .next t → step s' = .next t' →
    (∃ new : List Output, t.out = s.out ++ new ∧ t'.out = s'.out ++ new) ∧
    t.planeId = t'.planeId ∧ t.acqMode = t'.acqMode

/-- Every run of one instance ends (70_reset_and_hazards.md R178, R179): as many steps as requests are pending lead, from
every state and through every skip and hard error, to a state where each of them has its response, in order after the
earlier ones; that is the end of the run unless a live reset had dropped a request (log entry 13). That a step takes one
request is the model's reading (log entry 18). -/
def Obligations.RunsEndWithEveryResponse : Prop :=
  ∀ s : State, ∃ (t : State) (new : List Response), runSteps s.pending.length s = .next t ∧ t.pending = [] ∧
    (t.ended = true ↔ s.unanswered = []) ∧
    t.observation.responses = s.observation.responses ++ new ∧ new.length = s.pending.length

/-- Every run over several instances ends (70_reset_and_hazards.md R178, R179): turns in any order (20_memory.md R53) that
give each instance at least one step for each of its pending requests lead to instances that have answered each of them,
each after its own earlier responses. The run has then ended exactly where no live reset had dropped a request
(log entry 13), and its observation is that of the instances. Turns as interleaved moves are log entry 14. -/
def Obligations.SystemRunsEndWithEveryResponse : Prop :=
  ∀ (sys : System) (turns : List Nat),
    (∀ (n : Nat) (s : State), sys.instances[n]? = some s → s.pending.length ≤ turns.count n) →
    ∃ sys' : System, sys.moves (turns.map Move.run) = .next sys' ∧
      sys'.instances.length = sys.instances.length ∧
      (∀ (n : Nat) (s : State), sys.instances[n]? = some s → ∃ (t : State) (new : List Response), sys'.instances[n]? = some t ∧
        t.pending = [] ∧ t.observation.responses = s.observation.responses ++ new ∧
        new.length = s.pending.length) ∧
      (sys'.ended = true ↔ ∀ s ∈ sys.instances, s.unanswered = []) ∧
      ∀ moves : List Move, System.empty.moves moves = .next sys → sys.instances ≠ [] →
        (∀ s ∈ sys.instances, s.unanswered = []) →
        runObservation (moves ++ turns.map Move.run) = some sys'.observation

/-- How the moves of different instances interleave is not observed (70_reset_and_hazards.md R179, 20_memory.md R53): two
orders of moves that agree on the moves of each instance lead to the same instances. Moves are log entry 14. -/
def Obligations.InterleavingIsNotObserved : Prop :=
  ∀ (sys : System) (moves moves' : List Move), (∀ m ∈ moves ++ moves', m.target ≠ none) →
    (∀ n, moves.filter (fun m => m.target == some n) = moves'.filter fun m => m.target == some n) →
    ∃ sys' : System, sys.moves moves = .next sys' ∧ sys.moves moves' = .next sys'

/-- The invariant of a block holds after every step that starts in it (R26, R28, R32, R48, R52, R126, R140, R160): legal
parameters; every operation's outputs whole and in order (an event only before CONVERTED, a diagnostic record only
before the skip it reports); every record returned at a valid address; every event of the 64 by 16 geometry with no
zero-magnitude hit and, under `fault`, with its times in order. -/
def Obligations.StepKeepsTheInvariant : Prop :=
  ∀ s t : State, s.invariant = true → step s = .next t → t.invariant = true

/-- The invariant holds at reset, and in every block constructed with lawful parameters. -/
def Obligations.ResetMeetsTheInvariant : Prop :=
  State.reset.invariant = true ∧ ∀ p : Params, p.lawful = true → (State.construct p).invariant = true

/-- The view of 60_exceptions.md R165 beside the step's own (log entry 1): the strict step, for which a hard error is a fault of the run, faults exactly when the step's
operation answers a hard error, with that error; it is the step otherwise. -/
def Obligations.StrictStepFaultsOnHardErrors : Prop :=
  ∀ (s t : State), step s = .next t →
    (∀ e : HardError, strictStep s = .fault (.hardError e) ↔ t.out = s.out ++ [.response (.error e)]) ∧
    (strictStep s = .next t ↔ ∀ e : HardError, t.out ≠ s.out ++ [.response (.error e)]) ∧
    (s.noHardError = true → strictStep s = .next t → t.noHardError = true)

/-- A move touches only the instance it names (10_state.md R36): every other instance, its configuration and its outputs
included, is as it was, and constructing an instance touches none. Instances as a list under moves, and a move that names
no instance, are log entry 14. -/
def Obligations.MovesTouchOnlyTheirInstance : Prop :=
  ∀ (sys sys' : System) (m : Move) (n : Nat), sys.move m = .next sys' → n < sys.instances.length →
    m.target ≠ some n → sys'.instances[n]? = sys.instances[n]?

/-- Operations on different instances do not interact (20_memory.md R53, R36): moves on different instances commute, run
in either order they lead to the same instances. That instances run by interleaved moves is log entry 14. -/
def Obligations.InstancesDoNotInteract : Prop :=
  ∀ (sys : System) (m m' : Move) (n n' : Nat), m.target = some n → m'.target = some n' → n ≠ n' →
    ∃ sys' : System, sys.moves [m, m'] = .next sys' ∧ sys.moves [m', m] = .next sys'
end

