-- ==== Sys2Proof/Laws/Layout.lean ====
section
/-! SUPPORT. Slices and field maps: the bounds of their values, what a value depends on, and what placing a value does
to each bit of a word. -/

namespace Sys2Proof

theorem Slice.value_lt (c : Slice) (ws : List Word) : c.value ws < 2 ^ c.width :=
  Nat.mod_lt _ (Nat.two_pow_pos _)

theorem FieldMap.value_lt (fm : FieldMap) (ws : List Word) : fm.value ws < 2 ^ fm.width := by
  induction fm with
  | nil => simp [FieldMap.value, FieldMap.width]
  | cons c rest ih =>
    have hc := c.value_lt ws
    simp only [FieldMap.value, FieldMap.width, pow_add]
    calc c.value ws * 2 ^ FieldMap.width rest + FieldMap.value rest ws
        < c.value ws * 2 ^ FieldMap.width rest + 2 ^ FieldMap.width rest := by omega
      _ = (c.value ws + 1) * 2 ^ FieldMap.width rest := by ring
      _ ≤ 2 ^ c.width * 2 ^ FieldMap.width rest := Nat.mul_le_mul_right _ hc

/-- The bits of a slice's value. -/
theorem Slice.value_testBit (c : Slice) (ws : List Word) (b : Nat) :
    (c.value ws).testBit b = (decide (b < c.width) && (ws.getD c.word 0).getLsbD (c.lo + b)) := by
  simp [Slice.value, Nat.testBit_mod_two_pow, Nat.testBit_shiftRight, BitVec.getLsbD]

/-- A slice's value depends only on the slice's bits. -/
theorem Slice.value_congr (c : Slice) (ws vs : List Word)
    (h : ∀ b, c.lo ≤ b → b ≤ c.hi → (ws.getD c.word 0).getLsbD b = (vs.getD c.word 0).getLsbD b) :
    c.value ws = c.value vs := by
  apply Nat.eq_of_testBit_eq
  intro b
  rw [Slice.value_testBit, Slice.value_testBit]
  by_cases hb : b < c.width
  · rw [h (c.lo + b) (by omega) (by simp only [Slice.width] at hb; omega)]
  · simp [hb]

/-- A field map's value depends only on its slices' values. -/
theorem FieldMap.value_congr (fm : FieldMap) (ws vs : List Word) (h : ∀ c ∈ fm, c.value ws = c.value vs) :
    fm.value ws = fm.value vs := by
  induction fm with
  | nil => rfl
  | cons c rest ih =>
    simp only [FieldMap.value]
    rw [h c (by simp), ih fun d hd => h d (by simp [hd])]

/-- The bits a slice places in a word. -/
theorem Slice.place_testBit (c : Slice) (v i b : Nat) :
    (c.place v i).testBit b =
      (decide (c.word = i) && decide (c.lo ≤ b) && decide (b - c.lo < c.width) && v.testBit (b - c.lo)) := by
  unfold Slice.place
  split <;> rename_i h
  · simp [h, Nat.testBit_shiftLeft, Nat.testBit_mod_two_pow, Bool.and_assoc]
  · simp [h]

/-- A slice disjoint from `d` places nothing on the bits of `d`. -/
theorem Slice.place_disjoint {c d : Slice} (h : c.disjoint d = true) (v b : Nat) (hb : b < d.width) :
    (c.place v d.word).testBit (d.lo + b) = false := by
  rw [Slice.place_testBit]
  simp only [Slice.disjoint, Bool.or_eq_true, bne_iff_ne, decide_eq_true_eq] at h
  simp only [Slice.width] at hb ⊢
  rcases h with (h | h) | h
  · simp [h]
  · by_cases h' : c.lo ≤ d.lo + b
    · have : ¬ d.lo + b - c.lo < c.hi + 1 - c.lo := by omega
      simp [this]
    · simp [h']
  · have : ¬ c.lo ≤ d.lo + b := by omega
    simp [this]

/-- Field maps whose slices are all disjoint from `d` place nothing on the bits of `d`. -/
theorem FieldMap.place_disjoint (fm : FieldMap) {d : Slice} (h : ∀ c ∈ fm, c.disjoint d = true) (v b : Nat)
    (hb : b < d.width) : (FieldMap.place fm v d.word).testBit (d.lo + b) = false := by
  induction fm with
  | nil => simp [FieldMap.place]
  | cons c rest ih =>
    simp only [FieldMap.place, Nat.testBit_or]
    rw [Slice.place_disjoint (h c (by simp)) _ _ hb, ih fun x hx => h x (by simp [hx])]
    rfl

theorem Slice.disjoint_comm (c d : Slice) : c.disjoint d = d.disjoint c := by
  simp only [Slice.disjoint]
  rw [show (c.word != d.word) = (d.word != c.word) from by simp [bne, Bool.beq_comm]]
  cases (d.word != c.word) <;> simp [Bool.or_comm]

theorem noOverlap_append (xs ys : List Slice) :
    noOverlap (xs ++ ys) = true ↔
      noOverlap xs = true ∧ noOverlap ys = true ∧ ∀ c ∈ xs, ∀ d ∈ ys, c.disjoint d = true := by
  induction xs with
  | nil => simp [noOverlap]
  | cons c rest ih =>
    simp only [List.cons_append, noOverlap, Bool.and_eq_true, List.all_append, List.all_eq_true, ih]
    constructor
    · rintro ⟨⟨h1, h2⟩, h3, h4, h5⟩
      refine ⟨⟨h1, h3⟩, h4, ?_⟩
      intro x hx d hd
      rcases List.mem_cons.1 hx with rfl | hx
      · exact h2 d hd
      · exact h5 x hx d hd
    · rintro ⟨⟨h1, h3⟩, h4, h5⟩
      exact ⟨⟨h1, fun d hd => h5 c (by simp) d hd⟩, h3, h4, fun x hx d hd => h5 x (by simp [hx]) d hd⟩

/-- A word that holds, on every slice of a field map, exactly the bits placed there reads back the placed value. -/
theorem FieldMap.value_of_placed (fm : FieldMap) (v : Nat) (ws : List Word) (hd : noOverlap fm = true)
    (h : ∀ c ∈ fm, ∀ b, b < c.width →
      (ws.getD c.word 0).getLsbD (c.lo + b) = (FieldMap.place fm v c.word).testBit (c.lo + b)) :
    fm.value ws = v % 2 ^ fm.width := by
  induction fm generalizing v with
  | nil => simp [FieldMap.value, FieldMap.width, Nat.mod_one]
  | cons c rest ih =>
    simp only [noOverlap, Bool.and_eq_true, List.all_eq_true] at hd
    have hrest : FieldMap.value rest ws = v % 2 ^ FieldMap.width rest := by
      refine ih v hd.2 fun d hdr b hb => ?_
      rw [h d (by simp [hdr]) b hb]
      simp only [FieldMap.place, Nat.testBit_or]
      rw [Slice.place_disjoint (hd.1 d hdr) _ _ hb, Bool.false_or]
    have hc : c.value ws = (v >>> FieldMap.width rest) % 2 ^ c.width := by
      apply Nat.eq_of_testBit_eq
      intro b
      rw [Slice.value_testBit, Nat.testBit_mod_two_pow]
      by_cases hb : b < c.width
      · rw [h c (by simp) b hb]
        simp only [FieldMap.place, Nat.testBit_or]
        rw [FieldMap.place_disjoint rest (fun d hdr => by rw [Slice.disjoint_comm]; exact hd.1 d hdr) _ _ hb,
          Slice.place_testBit]
        simp [hb]
      · simp [hb]
    simp only [FieldMap.value, FieldMap.width, hrest, hc]
    rw [Nat.shiftRight_eq_div_pow, Nat.add_comm c.width, pow_add, Nat.mod_mul]
    ring

/-- What a legal field map over `n` words is. -/
theorem FieldMap.legal_spec {n w : Nat} {fm : FieldMap} (h : fm.legal n w = true) :
    (∀ c ∈ fm, c.word < n ∧ c.lo ≤ c.hi ∧ c.hi ≤ 31) ∧ fm ≠ [] ∧ fm.width ≤ w := by
  simp only [FieldMap.legal, Slice.legal, Bool.and_eq_true, Bool.not_eq_true', List.isEmpty_eq_false_iff,
    List.all_eq_true, decide_eq_true_eq] at h
  exact ⟨fun c hc => ⟨(h.1.2 c hc).1.1, (h.1.2 c hc).1.2, (h.1.2 c hc).2⟩, h.1.1, h.2⟩

/-- A legal field map reads back the value placed in words that hold, on its slices, nothing else. -/
theorem FieldMap.value_of_words {fm : FieldMap} {v n w : Nat} {ws : List Word} (others : Nat → Nat)
    (hl : fm.legal n w = true) (hd : noOverlap fm = true) (hv : v < 2 ^ fm.width)
    (hws : ∀ i, i < n → ws.getD i 0 = BitVec.ofNat 32 (fm.place v i ||| others i))
    (hothers : ∀ c ∈ fm, ∀ b, b < c.width → (others c.word).testBit (c.lo + b) = false) : fm.value ws = v := by
  rw [FieldMap.value_of_placed fm v ws hd, Nat.mod_eq_of_lt hv]
  intro c hc b hb
  obtain ⟨h1, h2, h3⟩ := (FieldMap.legal_spec hl).1 c hc
  rw [hws _ h1, BitVec.getLsbD_ofNat, Nat.testBit_or, hothers c hc b hb]
  simp only [Slice.width] at hb
  have : c.lo + b < 32 := by omega
  simp [this]

/-- `P_PIX_LAYOUT[m]` by its parts. -/
theorem Params.decodeUnit_acqMode (p : Params) (m : AcqMode) (k : Nat) (u : List Word) :
    (p.decodeUnit m k u).acqMode = m := by
  cases m <;> rfl

theorem Params.decodeUnit_addr (p : Params) (m : AcqMode) (k : Nat) (u : List Word) :
    (p.decodeUnit m k u).addr = (p.unitLayout m).addr.address k u := by
  cases m <;> rfl

theorem Params.decodeUnit_magnitude (p : Params) (m : AcqMode) (k : Nat) (u : List Word) :
    (p.decodeUnit m k u).magnitude = (p.unitLayout m).tot.value u := by
  cases m <;> rfl

@[simp] theorem AcqMode.record_addr (m : AcqMode) (addr : PixelAddress) (tot arrivalTicks : Nat) :
    (m.record addr tot arrivalTicks).addr = addr := by cases m <;> rfl

@[simp] theorem AcqMode.record_magnitude (m : AcqMode) (addr : PixelAddress) (tot arrivalTicks : Nat) :
    (m.record addr tot arrivalTicks).magnitude = tot := by cases m <;> rfl

@[simp] theorem AcqMode.record_acqMode (m : AcqMode) (addr : PixelAddress) (tot arrivalTicks : Nat) :
    (m.record addr tot arrivalTicks).acqMode = m := by cases m <;> rfl

theorem PixelAddress.valid_iff (a : PixelAddress) : a.valid = true ↔ a.col < 64 ∧ a.row < 16 := by
  simp [PixelAddress.valid, Config.cols, Config.rows]

theorem AcqMode.ofByte?_byte (m : AcqMode) : AcqMode.ofByte? m.byte = some m := by
  cases m <;> rfl

theorem AcqMode.ofByte?_eq_none (b : ModeByte) : AcqMode.ofByte? b = none ↔ 2 ≤ b.toNat := by
  unfold AcqMode.ofByte?
  split
  · subst_vars; simp
  · split
    · subst_vars; simp
    · rename_i h0 h1
      simp only [true_iff]
      have h0' : b.toNat ≠ 0 := fun h => h0 (BitVec.eq_of_toNat_eq h)
      have h1' : b.toNat ≠ 1 := fun h => h1 (BitVec.eq_of_toNat_eq h)
      omega

theorem AcqMode.ofByte?_eq_some {b : ModeByte} {m : AcqMode} (h : AcqMode.ofByte? b = some m) : b = m.byte := by
  unfold AcqMode.ofByte? at h
  split at h
  · cases h; assumption
  · split at h
    · cases h; assumption
    · cases h

end Sys2Proof
end

