-- ==== Sys2Proof/Laws/State.lean ====
section
/-! SUPPORT. One lemma for each field of State under each update, true by rfl, so that no proof unfolds an update. -/

namespace Sys2Proof.Machine

variable (s : State)

/-! ### writePlaneId -/

@[simp] theorem State.writePlaneId_params (v : BitVec 32) : (s.writePlaneId v).params = s.params := rfl
@[simp] theorem State.writePlaneId_planeId (v : BitVec 32) : (s.writePlaneId v).planeId = v := rfl
@[simp] theorem State.writePlaneId_acqMode (v : BitVec 32) : (s.writePlaneId v).acqMode = s.acqMode := rfl
@[simp] theorem State.writePlaneId_latches (v : BitVec 32) : (s.writePlaneId v).latches = s.latches := rfl
@[simp] theorem State.writePlaneId_pending (v : BitVec 32) : (s.writePlaneId v).pending = s.pending := rfl
@[simp] theorem State.writePlaneId_unanswered (v : BitVec 32) : (s.writePlaneId v).unanswered = s.unanswered := rfl
@[simp] theorem State.writePlaneId_port (v : BitVec 32) : (s.writePlaneId v).port = s.port := rfl
@[simp] theorem State.writePlaneId_out (v : BitVec 32) : (s.writePlaneId v).out = s.out := rfl
@[simp] theorem State.writePlaneId_undefIndex (v : BitVec 32) : (s.writePlaneId v).undefIndex = s.undefIndex := rfl

/-! ### writeAcqMode -/

@[simp] theorem State.writeAcqMode_params (v : ModeByte) : (s.writeAcqMode v).params = s.params := rfl
@[simp] theorem State.writeAcqMode_planeId (v : ModeByte) : (s.writeAcqMode v).planeId = s.planeId := rfl
@[simp] theorem State.writeAcqMode_acqMode (v : ModeByte) : (s.writeAcqMode v).acqMode = v := rfl
@[simp] theorem State.writeAcqMode_latches (v : ModeByte) : (s.writeAcqMode v).latches = s.latches := rfl
@[simp] theorem State.writeAcqMode_pending (v : ModeByte) : (s.writeAcqMode v).pending = s.pending := rfl
@[simp] theorem State.writeAcqMode_unanswered (v : ModeByte) : (s.writeAcqMode v).unanswered = s.unanswered := rfl
@[simp] theorem State.writeAcqMode_port (v : ModeByte) : (s.writeAcqMode v).port = s.port := rfl
@[simp] theorem State.writeAcqMode_out (v : ModeByte) : (s.writeAcqMode v).out = s.out := rfl
@[simp] theorem State.writeAcqMode_undefIndex (v : ModeByte) : (s.writeAcqMode v).undefIndex = s.undefIndex := rfl

/-! ### writeLatches -/

@[simp] theorem State.writeLatches_params (l : Latches) : (s.writeLatches l).params = s.params := rfl
@[simp] theorem State.writeLatches_planeId (l : Latches) : (s.writeLatches l).planeId = s.planeId := rfl
@[simp] theorem State.writeLatches_acqMode (l : Latches) : (s.writeLatches l).acqMode = s.acqMode := rfl
@[simp] theorem State.writeLatches_latches (l : Latches) : (s.writeLatches l).latches = l := rfl
@[simp] theorem State.writeLatches_pending (l : Latches) : (s.writeLatches l).pending = s.pending := rfl
@[simp] theorem State.writeLatches_unanswered (l : Latches) : (s.writeLatches l).unanswered = s.unanswered := rfl
@[simp] theorem State.writeLatches_port (l : Latches) : (s.writeLatches l).port = s.port := rfl
@[simp] theorem State.writeLatches_out (l : Latches) : (s.writeLatches l).out = s.out := rfl
@[simp] theorem State.writeLatches_undefIndex (l : Latches) : (s.writeLatches l).undefIndex = s.undefIndex := rfl

/-! ### send -/

@[simp] theorem State.send_params (o : Output) : (s.send o).params = s.params := rfl
@[simp] theorem State.send_planeId (o : Output) : (s.send o).planeId = s.planeId := rfl
@[simp] theorem State.send_acqMode (o : Output) : (s.send o).acqMode = s.acqMode := rfl
@[simp] theorem State.send_latches (o : Output) : (s.send o).latches = s.latches := rfl
@[simp] theorem State.send_pending (o : Output) : (s.send o).pending = s.pending := rfl
@[simp] theorem State.send_unanswered (o : Output) : (s.send o).unanswered = s.unanswered := rfl
@[simp] theorem State.send_port (o : Output) : (s.send o).port = s.port := rfl
@[simp] theorem State.send_out (o : Output) : (s.send o).out = s.out ++ [o] := rfl
@[simp] theorem State.send_undefIndex (o : Output) : (s.send o).undefIndex = s.undefIndex := rfl

/-! ### emit -/

@[simp] theorem State.emit_params (ev : OutEvent) : (s.emit ev).params = s.params := rfl
@[simp] theorem State.emit_planeId (ev : OutEvent) : (s.emit ev).planeId = s.planeId := rfl
@[simp] theorem State.emit_acqMode (ev : OutEvent) : (s.emit ev).acqMode = s.acqMode := rfl
@[simp] theorem State.emit_latches (ev : OutEvent) : (s.emit ev).latches = s.latches := rfl
@[simp] theorem State.emit_pending (ev : OutEvent) : (s.emit ev).pending = s.pending := rfl
@[simp] theorem State.emit_unanswered (ev : OutEvent) : (s.emit ev).unanswered = s.unanswered := rfl
@[simp] theorem State.emit_port (ev : OutEvent) : (s.emit ev).port = s.port := rfl
@[simp] theorem State.emit_out (ev : OutEvent) : (s.emit ev).out = s.out ++ [.event ev] := rfl
@[simp] theorem State.emit_undefIndex (ev : OutEvent) : (s.emit ev).undefIndex = s.undefIndex := rfl

/-! ### sendDiag -/

@[simp] theorem State.sendDiag_params (d : Diagnostic) : (s.sendDiag d).params = s.params := rfl
@[simp] theorem State.sendDiag_planeId (d : Diagnostic) : (s.sendDiag d).planeId = s.planeId := rfl
@[simp] theorem State.sendDiag_acqMode (d : Diagnostic) : (s.sendDiag d).acqMode = s.acqMode := rfl
@[simp] theorem State.sendDiag_latches (d : Diagnostic) : (s.sendDiag d).latches = s.latches := rfl
@[simp] theorem State.sendDiag_pending (d : Diagnostic) : (s.sendDiag d).pending = s.pending := rfl
@[simp] theorem State.sendDiag_unanswered (d : Diagnostic) : (s.sendDiag d).unanswered = s.unanswered := rfl
@[simp] theorem State.sendDiag_port (d : Diagnostic) : (s.sendDiag d).port = s.port := rfl
@[simp] theorem State.sendDiag_out (d : Diagnostic) : (s.sendDiag d).out = s.out ++ [.diag d] := rfl
@[simp] theorem State.sendDiag_undefIndex (d : Diagnostic) : (s.sendDiag d).undefIndex = s.undefIndex := rfl

/-! ### respond -/

@[simp] theorem State.respond_params (r : Response) : (s.respond r).params = s.params := rfl
@[simp] theorem State.respond_planeId (r : Response) : (s.respond r).planeId = s.planeId := rfl
@[simp] theorem State.respond_acqMode (r : Response) : (s.respond r).acqMode = s.acqMode := rfl
@[simp] theorem State.respond_latches (r : Response) : (s.respond r).latches = s.latches := rfl
@[simp] theorem State.respond_pending (r : Response) : (s.respond r).pending = s.pending := rfl
@[simp] theorem State.respond_unanswered (r : Response) : (s.respond r).unanswered = s.unanswered := rfl
@[simp] theorem State.respond_port (r : Response) : (s.respond r).port = s.port := rfl
@[simp] theorem State.respond_out (r : Response) : (s.respond r).out = s.out ++ [.response r] := rfl
@[simp] theorem State.respond_undefIndex (r : Response) : (s.respond r).undefIndex = s.undefIndex := rfl

/-! ### beginOperation -/

@[simp] theorem State.beginOperation_params (rest : List Request) : (s.beginOperation rest).params = s.params := rfl
@[simp] theorem State.beginOperation_planeId (rest : List Request) : (s.beginOperation rest).planeId = s.planeId := rfl
@[simp] theorem State.beginOperation_acqMode (rest : List Request) : (s.beginOperation rest).acqMode = s.acqMode := rfl
@[simp] theorem State.beginOperation_latches (rest : List Request) : (s.beginOperation rest).latches = Config.undefinedLatches s.undefIndex := rfl
@[simp] theorem State.beginOperation_pending (rest : List Request) : (s.beginOperation rest).pending = rest := rfl
@[simp] theorem State.beginOperation_unanswered (rest : List Request) : (s.beginOperation rest).unanswered = s.unanswered := rfl
@[simp] theorem State.beginOperation_port (rest : List Request) : (s.beginOperation rest).port = s.port := rfl
@[simp] theorem State.beginOperation_out (rest : List Request) : (s.beginOperation rest).out = s.out := rfl
@[simp] theorem State.beginOperation_undefIndex (rest : List Request) : (s.beginOperation rest).undefIndex = s.undefIndex + 1 := rfl

/-! ### loadPort -/

@[simp] theorem State.loadPort_params (o : Operands) : (s.loadPort o).params = s.params := rfl
@[simp] theorem State.loadPort_planeId (o : Operands) : (s.loadPort o).planeId = s.planeId := rfl
@[simp] theorem State.loadPort_acqMode (o : Operands) : (s.loadPort o).acqMode = s.acqMode := rfl
@[simp] theorem State.loadPort_latches (o : Operands) : (s.loadPort o).latches = s.latches := rfl
@[simp] theorem State.loadPort_pending (o : Operands) : (s.loadPort o).pending = s.pending := rfl
@[simp] theorem State.loadPort_unanswered (o : Operands) : (s.loadPort o).unanswered = s.unanswered := rfl
@[simp] theorem State.loadPort_port (o : Operands) : (s.loadPort o).port = o := rfl
@[simp] theorem State.loadPort_out (o : Operands) : (s.loadPort o).out = s.out := rfl
@[simp] theorem State.loadPort_undefIndex (o : Operands) : (s.loadPort o).undefIndex = s.undefIndex := rfl

/-! ### issue -/

@[simp] theorem State.issue_params (r : Request) : (s.issue r).params = s.params := rfl
@[simp] theorem State.issue_planeId (r : Request) : (s.issue r).planeId = s.planeId := rfl
@[simp] theorem State.issue_acqMode (r : Request) : (s.issue r).acqMode = s.acqMode := rfl
@[simp] theorem State.issue_latches (r : Request) : (s.issue r).latches = s.latches := rfl
@[simp] theorem State.issue_pending (r : Request) : (s.issue r).pending = s.pending ++ [r] := rfl
@[simp] theorem State.issue_unanswered (r : Request) : (s.issue r).unanswered = s.unanswered := rfl
@[simp] theorem State.issue_port (r : Request) : (s.issue r).port = s.port := rfl
@[simp] theorem State.issue_out (r : Request) : (s.issue r).out = s.out := rfl
@[simp] theorem State.issue_undefIndex (r : Request) : (s.issue r).undefIndex = s.undefIndex := rfl

/-! ### applyReset -/

@[simp] theorem State.applyReset_params : (s.applyReset).params = s.params := rfl
@[simp] theorem State.applyReset_planeId : (s.applyReset).planeId = 0 := rfl
@[simp] theorem State.applyReset_acqMode : (s.applyReset).acqMode = 0x01 := rfl
@[simp] theorem State.applyReset_latches : (s.applyReset).latches = idleLatches := rfl
@[simp] theorem State.applyReset_pending : (s.applyReset).pending = [] := rfl
@[simp] theorem State.applyReset_unanswered : (s.applyReset).unanswered = s.unanswered ++ s.pending := rfl
@[simp] theorem State.applyReset_port : (s.applyReset).port = idleOperands := rfl
@[simp] theorem State.applyReset_out : (s.applyReset).out = s.out := rfl
@[simp] theorem State.applyReset_undefIndex : (s.applyReset).undefIndex = s.undefIndex := rfl

/-! ### withFetchWord -/

@[simp] theorem State.withFetchWord_params (nbits w : Nat) : (s.withFetchWord nbits w).params = s.params := rfl
@[simp] theorem State.withFetchWord_planeId (nbits w : Nat) : (s.withFetchWord nbits w).planeId = s.planeId := rfl
@[simp] theorem State.withFetchWord_acqMode (nbits w : Nat) : (s.withFetchWord nbits w).acqMode = s.acqMode := rfl
@[simp] theorem State.withFetchWord_latches (nbits w : Nat) : (s.withFetchWord nbits w).latches = s.latches := rfl
@[simp] theorem State.withFetchWord_pending (nbits w : Nat) : (s.withFetchWord nbits w).pending = ⟨BitVec.ofNat 32 (w % 2 ^ nbits), s.port⟩ :: s.pending := rfl
@[simp] theorem State.withFetchWord_unanswered (nbits w : Nat) : (s.withFetchWord nbits w).unanswered = s.unanswered := rfl
@[simp] theorem State.withFetchWord_port (nbits w : Nat) : (s.withFetchWord nbits w).port = s.port := rfl
@[simp] theorem State.withFetchWord_out (nbits w : Nat) : (s.withFetchWord nbits w).out = s.out := rfl
@[simp] theorem State.withFetchWord_undefIndex (nbits w : Nat) : (s.withFetchWord nbits w).undefIndex = s.undefIndex := rfl

/-! ### construct -/

@[simp] theorem State.construct_params (p : Params) : (State.construct p).params = p := rfl
@[simp] theorem State.construct_planeId (p : Params) : (State.construct p).planeId = 0 := rfl
@[simp] theorem State.construct_acqMode (p : Params) : (State.construct p).acqMode = 0x01 := rfl
@[simp] theorem State.construct_latches (p : Params) : (State.construct p).latches = idleLatches := rfl
@[simp] theorem State.construct_pending (p : Params) : (State.construct p).pending = [] := rfl
@[simp] theorem State.construct_unanswered (p : Params) : (State.construct p).unanswered = [] := rfl
@[simp] theorem State.construct_port (p : Params) : (State.construct p).port = idleOperands := rfl
@[simp] theorem State.construct_out (p : Params) : (State.construct p).out = [] := rfl
@[simp] theorem State.construct_undefIndex (p : Params) : (State.construct p).undefIndex = 0 := rfl

/-! ### The operand port -/

@[simp] theorem State.wordsOperand_eq : s.wordsOperand = s.port.words := rfl
@[simp] theorem State.payloadOperand_eq : s.payloadOperand = s.port.payload := rfl
@[simp] theorem State.headerOperand_eq : s.headerOperand = s.port.h := rfl
@[simp] theorem State.startOperand_eq : s.startOperand = s.port.startPs := rfl
@[simp] theorem State.endOperand_eq : s.endOperand = s.port.endPs := rfl
@[simp] theorem State.arrivalOperand_eq : s.arrivalOperand = s.port.arrival := rfl
@[simp] theorem State.recordsOperand_eq : s.recordsOperand = s.port.recs := rfl
@[simp] theorem State.eventOperand_eq : s.eventOperand = s.port.ev := rfl
@[simp] theorem State.recordOperand_eq : s.recordOperand = s.port.r := rfl
@[simp] theorem State.valueOperand_eq : s.valueOperand = s.port.v := rfl

end Sys2Proof.Machine
end

