-- ==== Sys2Proof/Laws/Ops.lean ====
section
/-! SUPPORT. What each shared operation of Machine/Ops.lean can do, once for each. -/

namespace Sys2Proof.Machine

/-! ### The end of an operation -/

theorem complete_eq (r : Result) (s : State) :
    complete r s = .next { s with out := s.out ++ [.response (.ok r)] } := rfl

theorem takeSkip_eq (k : Skip) (s : State) :
    takeSkip k s = { s with out := s.out ++ [.diag k.diagnostic, .response (.skip k)] } := by
  simp [takeSkip, State.respond, State.sendDiag, State.send]

theorem takeHardError_eq (e : HardError) (s : State) :
    takeHardError e s = { s with out := s.out ++ [.response (.error e)] } := rfl

/-- What a stop adds to the output. -/
def stopOutputs : Stop → List Output
  | .skip k => [.diag k.diagnostic, .response (.skip k)]
  | .hard e => [.response (.error e)]

/-- A stop adds its outputs and changes nothing else. -/
theorem takeStop_eq (x : Stop) (s : State) : takeStop x s = .next { s with out := s.out ++ stopOutputs x } := by
  cases x with
  | skip k => simp [takeStop, takeSkip_eq, stopOutputs]
  | hard e => rfl

theorem finish_ok (r : Result) (s : State) : finish (.ok r) s = complete r s := rfl

theorem finish_error (e : HardError) (s : State) : finish (.error e) s = takeStop (.hard e) s := rfl

theorem rejectCommand_eq (e : HardError) (s : State) :
    rejectCommand e s = .next { s with out := s.out ++ [.response (.error e)] } := rfl

theorem emit_then_complete_eq (r : Result) (ev : OutEvent) (s : State) :
    complete r (s.emit ev) = .next { s with out := s.out ++ [.event ev, .response (.ok r)] } := by
  simp [complete, State.emit, State.respond, State.send]

/-! ### Stages -/

@[simp] theorem runStages_nil (l : Latches) : runStages [] l = (l, none) := rfl

theorem runStages_cons_none {stage : Stage} {l l' : Latches} (h : stage l = (l', none)) (rest : List Stage) :
    runStages (stage :: rest) l = runStages rest l' := by
  simp [runStages, h]

theorem runStages_cons_some {stage : Stage} {l l' : Latches} {x : Stop} (h : stage l = (l', some x))
    (rest : List Stage) : runStages (stage :: rest) l = (l', some x) := by
  simp [runStages, h]

theorem runOperation_none {stages : List Stage} {s : State} {l : Latches}
    (h : runStages stages s.latches = (l, none)) (f : Latches → State → Effect) :
    runOperation stages f s = f l { s with latches := l } := by
  simp [runOperation, h, State.writeLatches]

theorem runOperation_some {stages : List Stage} {s : State} {l : Latches} {x : Stop}
    (h : runStages stages s.latches = (l, some x)) (f : Latches → State → Effect) :
    runOperation stages f s = .next { s with latches := l, out := s.out ++ stopOutputs x } := by
  simp [runOperation, h, takeStop_eq, State.writeLatches]

/-- A stage that only checks leaves the latches. -/
theorem checkStage_eq (check : Latches → Option Stop) (l : Latches) : checkStage check l = (l, check l) := rfl

/-! ### Reads of the buffers -/

theorem memRead_length (words : List Word) (i n : Nat) (h : i + n ≤ words.length) :
    (memRead words i n).length = n := by
  simp [memRead]; omega

/-- Word `j` of a read of the buffer at `i` is word `i + j` of the buffer. -/
theorem memRead_getD (words : List Word) (i n j : Nat) (d : Word) (h : j < n) :
    (memRead words i n).getD j d = words.getD (i + j) d := by
  simp [memRead, List.getD_eq_getElem?_getD, h, List.getElem?_drop]

/-- A buffer made of chunks of one length: its length, and the read of one chunk. -/
theorem flatMap_length {α : Type} (xs : List α) (f : α → List Word) (n : Nat) (h : ∀ x, (f x).length = n) :
    (xs.flatMap f).length = xs.length * n := by
  induction xs with
  | nil => simp
  | cons a rest ih => rw [List.flatMap_cons, List.length_append, ih, h, List.length_cons]; ring

theorem memRead_flatMap {α : Type} (xs : List α) (f : α → List Word) (n : Nat) (h : ∀ x, (f x).length = n) (k : Nat)
    (hk : k < xs.length) : memRead (xs.flatMap f) (k * n) n = f xs[k] := by
  induction xs generalizing k with
  | nil => simp at hk
  | cons a rest ih =>
    rcases k with _ | k
    · simp only [memRead, List.flatMap_cons, Nat.zero_mul, List.drop_zero]
      rw [List.take_left' (h a)]
      rfl
    · have hr := ih k (by simpa using hk)
      simp only [memRead, List.flatMap_cons] at *
      rw [show (k + 1) * n = (f a).length + k * n by rw [h]; ring, List.drop_append, List.drop_of_length_le (by omega),
        List.nil_append, Nat.add_sub_cancel_left]
      exact hr

@[simp] theorem wordBytes_length (order : ByteOrder) (w : Word) : (wordBytes order w).length = 4 := by
  cases order <;> rfl

theorem append_toNat {m n : Nat} (x : BitVec m) (y : BitVec n) : (x ++ y).toNat = x.toNat * 2 ^ n + y.toNat := by
  rw [BitVec.toNat_append, ← Nat.shiftLeft_add_eq_or_of_lt y.isLt, Nat.shiftLeft_eq]

/-- The four bytes of a word assemble back to it. -/
theorem assemble_wordBytes_append (order : ByteOrder) (w : Word) (rest : List Byte) :
    assemble order (wordBytes order w ++ rest) = w :: assemble order rest := by
  have hw : w.extractLsb' 24 8 ++ w.extractLsb' 16 8 ++ w.extractLsb' 8 8 ++ w.extractLsb' 0 8 = w := by
    apply BitVec.eq_of_getLsbD_eq
    intro i hi
    simp only [BitVec.getLsbD_append, BitVec.getLsbD_extractLsb']
    by_cases h1 : i < 8 <;> by_cases h2 : i < 16 <;> by_cases h3 : i < 24 <;> grind
  cases order <;> simp only [wordBytes, List.cons_append, List.nil_append, assemble, assembleWord] <;> rw [hw]

end Sys2Proof.Machine
end

