-- ==== Sys2Proof/Laws/Frame.lean ====
section
/-! SUPPORT. What the unpacking loop can do: it appends every unit's record, or stops at the first unit whose address is
out of range. -/

namespace Sys2Proof.Machine

/-- The record of unit `k`, as the loop reads it. -/
theorem rawUnit_addr (p : Params) (m : AcqMode) (payload : List Word) (k : Nat) :
    (rawUnit p m payload k).addr =
      (p.unitLayout m).addr.address k (memRead payload (k * p.unitWords m) (p.unitWords m)) :=
  p.decodeUnit_addr m k _

/-- With every address in range the loop appends one record for each unit and leaves the cursor past the last. -/
theorem unpackUnits_ok (p : Params) (m : AcqMode) (payload : List Word) (n : Nat) (l : Latches)
    (h : ∀ k, l.cursor ≤ k → k < l.cursor + n → (rawUnit p m payload k).addr.valid = true) :
    unpackUnits p m payload n l =
      ({ l with cursor := l.cursor + n,
                recs := l.recs ++ (List.range n).map fun k => rawUnit p m payload (l.cursor + k) }, none) := by
  induction n generalizing l with
  | zero => simp [unpackUnits]
  | succ n ih =>
    rw [unpackUnits, if_pos (h l.cursor (by omega) (by omega)), ih]
    · simp only [List.range_succ_eq_map, List.map_cons, List.map_map, List.append_assoc, List.singleton_append,
        Nat.add_zero, Prod.mk.injEq, and_true, Latches.mk.injEq, true_and]
      refine ⟨by omega, ?_⟩
      congr 2
      apply List.map_congr_left
      intro k _
      simp only [Function.comp]
      congr 1
      omega
    · intro k h1 h2
      exact h k (by simp only at h1; omega) (by simp only at h2; omega)

/-- At the first unit whose address is out of range the loop stops with `ERR_ADDRESS_RANGE`. -/
theorem unpackUnits_stop (p : Params) (m : AcqMode) (payload : List Word) (n : Nat) (l : Latches) (k : Nat)
    (hk : l.cursor ≤ k) (hn : k < l.cursor + n)
    (h : ∀ j, l.cursor ≤ j → j < k → (rawUnit p m payload j).addr.valid = true)
    (hbad : (rawUnit p m payload k).addr.valid = false) :
    ∃ l', unpackUnits p m payload n l = (l', some (.hard (.addressRange k (rawUnit p m payload k).addr.col
      (rawUnit p m payload k).addr.row))) := by
  induction n generalizing l with
  | zero => omega
  | succ n ih =>
    rw [unpackUnits]
    by_cases hc : l.cursor = k
    · subst hc
      rw [if_neg (by simp [hbad])]
      exact ⟨_, rfl⟩
    · rw [if_pos (h l.cursor (by omega) (by omega))]
      exact ih _ (by simp only; omega) (by simp only; omega) (fun j h1 h2 => h j (by simp only at h1; omega) h2)

/-- The loop either appends every unit's record, all addresses valid, or stops with an address out of range. -/
theorem unpackUnits_cases (p : Params) (m : AcqMode) (payload : List Word) (n : Nat) (l : Latches) :
    (∀ k, l.cursor ≤ k → k < l.cursor + n → (rawUnit p m payload k).addr.valid = true) ∨
      ∃ k, l.cursor ≤ k ∧ k < l.cursor + n ∧ (rawUnit p m payload k).addr.valid = false ∧
        ∀ j, l.cursor ≤ j → j < k → (rawUnit p m payload j).addr.valid = true := by
  induction n generalizing l with
  | zero => exact .inl fun k h1 h2 => by omega
  | succ n ih =>
    by_cases hv : (rawUnit p m payload l.cursor).addr.valid = true
    · rcases ih { l with cursor := l.cursor + 1 } with h | ⟨k, h1, h2, h3, h4⟩
      · refine .inl fun k h1 h2 => ?_
        by_cases hk : k = l.cursor
        · rwa [hk]
        · exact h k (by simp only; omega) (by simp only; omega)
      · simp only at h1 h2 h4
        refine .inr ⟨k, by omega, by omega, h3, fun j h5 h6 => ?_⟩
        by_cases hj : j = l.cursor
        · rwa [hj]
        · exact h4 j (by omega) h6
    · exact .inr ⟨l.cursor, by omega, by omega, by simpa using hv, fun j h1 h2 => by omega⟩

/-- The records FRAME returns when it returns any. -/
def unitRecords (p : Params) (m : AcqMode) (payload : List Word) : List PixelRecord :=
  (List.range (payload.length / p.unitWords m)).map (rawUnit p m payload)

theorem unitRecords_length (p : Params) (m : AcqMode) (payload : List Word) :
    (unitRecords p m payload).length = payload.length / p.unitWords m := by
  simp [unitRecords]

/-- All that the unpacker can do: a length error, an address error, or every unit's record, each at a valid address. -/
theorem unpackStage_cases (p : Params) (m : AcqMode) (payload : List Word) (l : Latches) :
    (payload.length % p.unitWords m ≠ 0 ∧ unpackStage p m payload l =
      (l, some (.hard (.payloadLength payload.length (p.unitWords m) m.byte)))) ∨
    (payload.length % p.unitWords m = 0 ∧ ∃ k l', k < payload.length / p.unitWords m ∧
      (∀ j, j < k → (rawUnit p m payload j).addr.valid = true) ∧ (rawUnit p m payload k).addr.valid = false ∧
      unpackStage p m payload l = (l', some (.hard (.addressRange k (rawUnit p m payload k).addr.col
        (rawUnit p m payload k).addr.row)))) ∨
    (payload.length % p.unitWords m = 0 ∧
      (∀ j, j < payload.length / p.unitWords m → (rawUnit p m payload j).addr.valid = true) ∧
      unpackStage p m payload l =
        ({ l with cursor := payload.length / p.unitWords m, recs := unitRecords p m payload }, none)) := by
  unfold unpackStage
  by_cases hlen : payload.length % p.unitWords m = 0
  · right
    rw [if_pos hlen]
    rcases unpackUnits_cases p m payload (payload.length / p.unitWords m) { l with cursor := 0, recs := [] } with
      h | ⟨k, h1, h2, h3, h4⟩
    · refine .inr ⟨hlen, fun j hj => h j (Nat.zero_le _) (by simpa using hj), ?_⟩
      rw [unpackUnits_ok _ _ _ _ _ h]
      simp [unitRecords]
    · obtain ⟨l', hl'⟩ := unpackUnits_stop p m payload _ _ k h1 h2 h4 h3
      exact .inl ⟨hlen, k, l', by simpa using h2, fun j hj => h4 j (Nat.zero_le _) hj, h3, hl'⟩
  · exact .inl ⟨hlen, by rw [if_neg hlen]⟩

theorem unpackStage_length_error {p : Params} {m : AcqMode} {payload : List Word} (l : Latches)
    (h : payload.length % p.unitWords m ≠ 0) : unpackStage p m payload l =
      (l, some (.hard (.payloadLength payload.length (p.unitWords m) m.byte))) := by
  simp [unpackStage, h]

theorem unpackStage_address_error {p : Params} {m : AcqMode} {payload : List Word} (l : Latches) {k : Nat}
    (hlen : payload.length % p.unitWords m = 0) (hk : k < payload.length / p.unitWords m)
    (h : ∀ j, j < k → (rawUnit p m payload j).addr.valid = true)
    (hbad : (rawUnit p m payload k).addr.valid = false) :
    ∃ l', unpackStage p m payload l = (l', some (.hard (.addressRange k (rawUnit p m payload k).addr.col
      (rawUnit p m payload k).addr.row))) := by
  unfold unpackStage
  rw [if_pos hlen]
  exact unpackUnits_stop p m payload _ _ k (Nat.zero_le _) (by simpa using hk) (fun j _ hj => h j hj) hbad

theorem unpackStage_ok {p : Params} {m : AcqMode} {payload : List Word} (l : Latches)
    (hlen : payload.length % p.unitWords m = 0)
    (h : ∀ j, j < payload.length / p.unitWords m → (rawUnit p m payload j).addr.valid = true) :
    unpackStage p m payload l =
      ({ l with cursor := payload.length / p.unitWords m, recs := unitRecords p m payload }, none) := by
  unfold unpackStage
  rw [if_pos hlen, unpackUnits_ok _ _ _ _ _ fun k _ hk => h k (by simpa using hk)]
  simp [unitRecords]

end Sys2Proof.Machine
end

