-- ==== Sys2Proof/Laws/Validator.lean ====
section
/-! SUPPORT. What the timestamp computations and the frame time base can do. -/

namespace Sys2Proof.Machine

theorem acceptance_eq_accepted (h : FrameHeader) :
    acceptance h = .accepted ↔ h.t0Flag = true ∧ h.shutterOpen ≤ h.shutterClose := by
  unfold acceptance
  cases h.t0Flag <;> simp

theorem acceptance_notSynced {h : FrameHeader} (ht : h.t0Flag = false) : acceptance h = .rejectNotSynced := by
  simp [acceptance, ht]

theorem acceptance_shutterOrder {h : FrameHeader} (ht : h.t0Flag = true) (hs : h.shutterClose < h.shutterOpen) :
    acceptance h = .rejectShutterOrder := by
  simp [acceptance, ht, hs]

theorem toPs_ok {policy : TsOverflow} {tick : Nat} (h : policy = .fault → tick * 10000 < 2 ^ 64) :
    toPs policy tick = .ok (BitVec.ofNat 64 (tick * 10000)) := by
  cases policy with
  | fault => simp only [toPs, Config.psPerTick]; rw [if_neg (by have := h rfl; omega)]
  | wrap64 => rfl

theorem toPs_error {tick : Nat} (h : 2 ^ 64 ≤ tick * 10000) :
    toPs .fault tick = .error (.timestampRangeTick tick) := by
  simp only [toPs, Config.psPerTick]; rw [if_pos h]

/-- A tick conversion that answers is exact under `fault` and exact mod 2^64 under `wrap64`. -/
theorem toPs_eq_ok {policy : TsOverflow} {tick : Nat} {t : Picos} (h : toPs policy tick = .ok t) :
    t = BitVec.ofNat 64 (tick * 10000) ∧ (policy = .fault → t.toNat = tick * 10000) := by
  cases policy with
  | fault =>
    simp only [toPs, Config.psPerTick] at h
    split at h
    · cases h
    · cases h
      refine ⟨rfl, fun _ => ?_⟩
      rw [BitVec.toNat_ofNat]
      exact Nat.mod_eq_of_lt (by omega)
  | wrap64 => cases h; exact ⟨rfl, fun hp => by cases hp⟩

theorem midpoint_fault_toNat (a b : Picos) : (midpoint .fault a b).toNat = (a.toNat + b.toNat) / 2 := by
  have ha := a.isLt
  have hb := b.isLt
  simp only [midpoint, BitVec.toNat_ofNat]
  omega

theorem midpoint_wrap64_toNat (a b : Picos) :
    (midpoint .wrap64 a b).toNat = (a.toNat + b.toNat) % 2 ^ 64 / 2 := by
  simp only [midpoint, BitVec.toNat_ofNat]
  omega

theorem hitFromEnd_error {endPs : Picos} {arrival : Nat} (h : endPs.toNat < arrival * 10000) :
    hitFromEnd .fault endPs arrival = .error (.timestampRangeHit endPs arrival) := by
  simp only [hitFromEnd, Config.psPerTick]; rw [if_pos h]

theorem hitFromEnd_fault_ok {endPs : Picos} {arrival : Nat} (h : arrival * 10000 ≤ endPs.toNat) :
    hitFromEnd .fault endPs arrival = .ok (BitVec.ofNat 64 (endPs.toNat - arrival * 10000)) := by
  simp only [hitFromEnd, Config.psPerTick]; rw [if_neg (by omega)]

/-- A ToA time that answers under `fault` is the end time minus the arrival, exactly. -/
theorem hitFromEnd_fault_eq_ok {endPs t : Picos} {arrival : Nat} (h : hitFromEnd .fault endPs arrival = .ok t) :
    t.toNat + arrival * 10000 = endPs.toNat := by
  simp only [hitFromEnd, Config.psPerTick] at h
  split at h
  · cases h
  · cases h
    have := endPs.isLt
    rw [BitVec.toNat_ofNat]
    omega

/-- The frame time base: the open error, the close error, or both latches written. -/
theorem timeStage_cases (p : Params) (h : FrameHeader) :
    (∃ e, toPs p.tsOverflow h.shutterOpen = .error e ∧ ∀ l, timeStage p h l = (l, some (.hard e))) ∨
    (∃ a e, toPs p.tsOverflow h.shutterOpen = .ok a ∧ toPs p.tsOverflow h.shutterClose = .error e ∧
      ∀ l, timeStage p h l = ({ l with frameStartPs := a }, some (.hard e))) ∨
    (∃ a b, toPs p.tsOverflow h.shutterOpen = .ok a ∧ toPs p.tsOverflow h.shutterClose = .ok b ∧
      ∀ l, timeStage p h l = ({ l with frameStartPs := a, frameEndPs := b }, none)) := by
  rcases ha : toPs p.tsOverflow h.shutterOpen with e | a
  · exact .inl ⟨e, rfl, fun l => by simp [timeStage, ha]⟩
  · rcases hb : toPs p.tsOverflow h.shutterClose with e | b
    · exact .inr (.inl ⟨a, e, rfl, rfl, fun l => by simp [timeStage, ha, hb]⟩)
    · exact .inr (.inr ⟨a, b, rfl, rfl, fun l => by simp [timeStage, ha, hb]⟩)

theorem timeStage_ok {p : Params} {h : FrameHeader} {a b : Picos} (ha : toPs p.tsOverflow h.shutterOpen = .ok a)
    (hb : toPs p.tsOverflow h.shutterClose = .ok b) (l : Latches) :
    timeStage p h l = ({ l with frameStartPs := a, frameEndPs := b }, none) := by
  simp [timeStage, ha, hb]

theorem mem_suppressZero {r : PixelRecord} {recs : List PixelRecord} :
    r ∈ suppressZero recs ↔ r ∈ recs ∧ r.magnitude ≠ 0 := by
  simp [suppressZero]

end Sys2Proof.Machine
end

