-- ==== Sys2Proof/Laws/Convert.lean ====
section
/-! SUPPORT. What each stage of CONVERT can do, and what the whole operation can do. -/

namespace Sys2Proof.Machine

/-! ### The event's words -/

theorem assemble_length (order : ByteOrder) (bytes : List Byte) :
    (assemble order bytes).length = bytes.length / 4 := by
  fun_induction assemble order bytes with
  | case1 b0 b1 b2 b3 rest ih => simp only [List.length_cons, ih]; omega
  | case2 bytes h =>
    rcases bytes with _ | ⟨_, _ | ⟨_, _ | ⟨_, _ | ⟨_, _⟩⟩⟩⟩
    · rfl
    · simp
    · simp
    · simp
    · exact absurd rfl (h _ _ _ _ _)

/-- Part 1 of CONVERT answers words exactly for one block of whole words, at least six. -/
theorem eventWords_eq_ok {order : ByteOrder} {ev : InEvent} {words : List Word} :
    eventWords order ev = .ok words ↔
      ∃ bytes, ev.blocks = [bytes] ∧ bytes.length % 4 = 0 ∧ 6 ≤ words.length ∧ words = assemble order bytes := by
  unfold eventWords
  split
  · rename_i bytes hb
    split
    · rename_i h
      simp only [reduceCtorEq, hb, List.cons.injEq, and_true, false_iff]
      rintro ⟨bytes', rfl, h', -⟩
      exact h h'
    · split
      · rename_i h1 h2
        simp only [reduceCtorEq, hb, List.cons.injEq, and_true, false_iff]
        rintro ⟨bytes', rfl, -, h', rfl⟩
        simp only [Config.headerWords] at h2
        omega
      · rename_i h1 h2
        simp only [Except.ok.injEq, hb, List.cons.injEq, and_true, Config.headerWords] at *
        constructor
        · rintro rfl; exact ⟨bytes, rfl, by omega, by omega, rfl⟩
        · rintro ⟨bytes', rfl, -, -, rfl⟩; rfl
  · rename_i blocks hb
    simp only [reduceCtorEq, false_iff]
    rintro ⟨bytes, h, -⟩
    exact hb bytes h

/-- One block of whole words, at least six: the words CONVERT works on. -/
theorem eventWords_of_block {order : ByteOrder} {ev : InEvent} {bytes : List Byte} (hb : ev.blocks = [bytes])
    (h4 : bytes.length % 4 = 0) (h24 : 24 ≤ bytes.length) :
    eventWords order ev = .ok (assemble order bytes) ∧ 6 ≤ (assemble order bytes).length := by
  have h6 : 6 ≤ (assemble order bytes).length := by rw [assemble_length]; omega
  exact ⟨eventWords_eq_ok.2 ⟨bytes, hb, h4, h6, rfl⟩, h6⟩

/-! ### Checks -/

theorem acceptStop_eq_none (h : FrameHeader) : acceptStop h = none ↔ acceptance h = .accepted := by
  unfold acceptStop
  cases acceptance h <;> simp

theorem lengthStop_eq_none (check : LengthCheck) (payload : List Word) (h : FrameHeader) :
    lengthStop check payload h = none ↔ (check = .requireEqual → h.length = payload.length) := by
  cases check with
  | ignore => simp [lengthStop]
  | requireEqual => simp [lengthStop]

theorem headerStage_ok {p : Params} {words : List Word} (h : 6 ≤ words.length) (l : Latches) :
    headerStage p words l = ({ l with header := p.hdr.decode (words.take 6) }, none) := by
  unfold headerStage
  rw [if_neg (by simp only [Config.headerWords]; omega)]
  rfl

theorem headerStage_error {p : Params} {words : List Word} (h : words.length < 6) (l : Latches) :
    headerStage p words l = (l, some (.hard (.headerTruncated words.length))) := by
  unfold headerStage
  rw [if_pos h]

/-! ### Hits -/

theorem appendHits_ok {policy : TsOverflow} {recs : List PixelRecord} {times : List Picos} {l : Latches}
    (h : List.Forall₂ (fun r t => hitTime policy l.frameStartPs l.frameEndPs r = .ok t) recs times) :
    appendHits policy recs l =
      ({ l with hits := l.hits ++ (recs.zip times).map fun x => hitEntry x.1 x.2 }, none) := by
  induction recs generalizing l times with
  | nil => cases h; simp [appendHits]
  | cons r rest ih =>
    cases h with
    | cons h1 h2 =>
      rw [appendHits, h1]
      exact (ih (l := { l with hits := l.hits ++ [hitEntry r _] }) h2).trans (by simp)

theorem appendHits_error {policy : TsOverflow} {before : List PixelRecord} {x : PixelRecord} {e : HardError}
    (after : List PixelRecord) {l : Latches}
    (hb : ∀ y ∈ before, ∃ t, hitTime policy l.frameStartPs l.frameEndPs y = .ok t)
    (hx : hitTime policy l.frameStartPs l.frameEndPs x = .error e) :
    ∃ l', appendHits policy (before ++ x :: after) l = (l', some (.hard e)) := by
  induction before generalizing l with
  | nil => exact ⟨l, by simp [appendHits, hx]⟩
  | cons r rest ih =>
    obtain ⟨t, ht⟩ := hb r (by simp)
    simp only [List.cons_append, appendHits, ht]
    exact ih (l := { l with hits := l.hits ++ [hitEntry r t] }) (fun y hy => hb y (by simp [hy])) hx

/-- Every record has a time, or there is a first one that has none. -/
theorem hitTimes_cases (policy : TsOverflow) (a b : Picos) (recs : List PixelRecord) :
    (∃ times, List.Forall₂ (fun r t => hitTime policy a b r = .ok t) recs times) ∨
      ∃ before x after e, recs = before ++ x :: after ∧ (∀ y ∈ before, ∃ t, hitTime policy a b y = .ok t) ∧
        hitTime policy a b x = .error e := by
  induction recs with
  | nil => exact .inl ⟨[], .nil⟩
  | cons r rest ih =>
    rcases hr : hitTime policy a b r with e | t
    · exact .inr ⟨[], r, rest, e, rfl, by simp, hr⟩
    · rcases ih with ⟨times, h⟩ | ⟨before, x, after, e, rfl, hb, hx⟩
      · exact .inl ⟨t :: times, .cons hr h⟩
      · refine .inr ⟨r :: before, x, after, e, rfl, ?_, hx⟩
        intro y hy
        rcases List.mem_cons.1 hy with rfl | hy
        · exact ⟨t, hr⟩
        · exact hb y hy

/-- Records made one by one, each of nonzero magnitude with a time: what FILTER keeps of them, its times and its hits. -/
theorem hits_of_map {α : Type} {policy : TsOverflow} {a b : Picos} (ks : List α) (f : α → PixelRecord) (T : α → Picos)
    (hT : ∀ k ∈ ks, (f k).magnitude ≠ 0 → hitTime policy a b (f k) = .ok (T k)) :
    List.Forall₂ (fun r t => hitTime policy a b r = .ok t) (suppressZero (ks.map f))
        ((ks.filter fun k => (f k).magnitude ≠ 0).map T) ∧
      ((suppressZero (ks.map f)).zip ((ks.filter fun k => (f k).magnitude ≠ 0).map T)).map
          (fun x => hitEntry x.1 x.2) =
        (ks.filter fun k => (f k).magnitude ≠ 0).map fun k => hitEntry (f k) (T k) := by
  induction ks with
  | nil => exact ⟨.nil, rfl⟩
  | cons k rest ih =>
    obtain ⟨h1, h2⟩ := ih fun x hx => hT x (by simp [hx])
    by_cases hk : (f k).magnitude = 0
    · simp only [suppressZero, List.map_cons, List.filter_cons, hk] at h1 h2 ⊢
      exact ⟨h1, h2⟩
    · have ht := hT k (by simp) hk
      simp only [suppressZero, List.map_cons, List.filter_cons, ne_eq, hk, not_false_eq_true, decide_true,
        bne_iff_ne, if_true, List.zip_cons_cons] at h1 h2 ⊢
      exact ⟨.cons ht h1, by rw [h2]⟩

/-! ### The whole operation -/

/-- What makes CONVERT of an accepted frame succeed, with the latches it leaves: every latch is written. -/
structure Converts (p : Params) (mode : ModeByte) (words : List Word) (L : Latches) : Prop where
  enough : 6 ≤ words.length
  header : L.header = p.hdr.decode (words.take 6)
  accepted : acceptance L.header = .accepted
  length : p.lengthCheck = .requireEqual → L.header.length = (words.drop 6).length
  unpacked : ∃ m : AcqMode, mode = m.byte ∧ (words.drop 6).length % p.unitWords m = 0 ∧
    (∀ j, j < (words.drop 6).length / p.unitWords m → (rawUnit p m (words.drop 6) j).addr.valid = true) ∧
    L.cursor = (words.drop 6).length / p.unitWords m ∧ L.recs = unitRecords p m (words.drop 6)
  startTime : toPs p.tsOverflow L.header.shutterOpen = .ok L.frameStartPs
  endTime : toPs p.tsOverflow L.header.shutterClose = .ok L.frameEndPs
  hits : ∃ times, List.Forall₂ (fun r t => hitTime p.tsOverflow L.frameStartPs L.frameEndPs r = .ok t)
      (suppressZero L.recs) times ∧ L.hits = ((suppressZero L.recs).zip times).map fun x => hitEntry x.1 x.2

theorem accept_passes {l : Latches} (h : acceptStop l.header = none) :
    checkStage (fun l => acceptStop l.header) l = (l, none) := by
  rw [checkStage_eq, h]

/-- The stages after the acceptance policy, for a frame it accepts. -/
theorem stages_of_accepted {p : Params} {words : List Word} (h6 : 6 ≤ words.length)
    (ha : acceptance (p.hdr.decode (words.take 6)) = .accepted) (rest : List Stage) (l : Latches) :
    runStages (headerStage p words :: checkStage (fun l => acceptStop l.header) :: rest) l =
      runStages rest { l with header := p.hdr.decode (words.take 6) } :=
  (runStages_cons_none (headerStage_ok h6 l) _).trans
    (runStages_cons_none (accept_passes ((acceptStop_eq_none _).2 ha)) _)

theorem length_passes {check : LengthCheck} {payload : List Word} {l : Latches}
    (h : lengthStop check payload l.header = none) :
    checkStage (fun l => lengthStop check payload l.header) l = (l, none) := by
  rw [checkStage_eq, h]

theorem unpack_passes {p : Params} {mode : ModeByte} {m : AcqMode} {payload : List Word} {l : Latches}
    (hm : AcqMode.ofByte? mode = some m) (h5 : payload.length % p.unitWords m = 0)
    (h6 : ∀ j, j < payload.length / p.unitWords m → (rawUnit p m payload j).addr.valid = true) :
    configuredUnpackStage p mode payload l =
      ({ l with cursor := payload.length / p.unitWords m, recs := unitRecords p m payload }, none) := by
  rw [configuredUnpackStage, hm]
  exact unpackStage_ok l h5 h6

theorem headerTimeStage_eq (p : Params) (l : Latches) : headerTimeStage p l = timeStage p l.header l := rfl

theorem time_passes {p : Params} {l : Latches} {a b : Picos} (ha : toPs p.tsOverflow l.header.shutterOpen = .ok a)
    (hb : toPs p.tsOverflow l.header.shutterClose = .ok b) :
    headerTimeStage p l = ({ l with frameStartPs := a, frameEndPs := b }, none) := timeStage_ok ha hb l

theorem convertStages_of_converts {p : Params} {mode : ModeByte} {words : List Word} {L : Latches}
    (h : Converts p mode words L) (l : Latches) : runStages (convertStages p mode words) l = (L, none) := by
  obtain ⟨h1, h2, h3, h4, ⟨m, hm, h5, h6, h7, h8⟩, h9, h10, times, h11, h12⟩ := h
  obtain ⟨H, c, rs, hs, a, b⟩ := L
  simp only at h2 h3 h4 h7 h8 h9 h10 h11 h12
  subst h2 h7 h8 h12 hm
  refine (runStages_cons_none (headerStage_ok h1 l) _).trans ?_
  refine (runStages_cons_none (accept_passes ((acceptStop_eq_none _).2 h3)) _).trans ?_
  refine (runStages_cons_none (length_passes ((lengthStop_eq_none _ _ _).2 h4)) _).trans ?_
  refine (runStages_cons_none (unpack_passes (AcqMode.ofByte?_byte m) h5 h6) _).trans ?_
  refine (runStages_cons_none (time_passes (l := { l with
    header := p.hdr.decode (words.take 6), cursor := (payloadOf words).length / p.unitWords m,
    recs := unitRecords p m (payloadOf words) }) h9 h10) _).trans ?_
  exact runStages_cons_none (appendHits_ok h11) []

/-- All that the stages of CONVERT can do, whatever the latches held before (R21, R35): they end with every latch
written, or stop for a reason the latches do not decide. -/
theorem convertStages_cases (p : Params) (mode : ModeByte) (words : List Word) :
    (∃ L, Converts p mode words L ∧ ∀ l, runStages (convertStages p mode words) l = (L, none)) ∨
      ∃ x, ∀ l, ∃ l', runStages (convertStages p mode words) l = (l', some x) := by
  by_cases h1 : 6 ≤ words.length
  swap
  · exact .inr ⟨_, fun l => ⟨_, runStages_cons_some (headerStage_error (by omega) l) _⟩⟩
  have s1 := fun (l : Latches) => runStages_cons_none (headerStage_ok (p := p) h1 l)
  rcases ha : acceptStop (p.hdr.decode (words.take 6)) with _ | x
  swap
  · exact .inr ⟨x, fun l => ⟨{ l with header := p.hdr.decode (words.take 6) },
      (s1 l _).trans (runStages_cons_some (by rw [checkStage_eq, ha]) _)⟩⟩
  have s2 := fun (l : Latches) rest => (s1 l _).trans (runStages_cons_none (accept_passes ha) rest)
  rcases hl : lengthStop p.lengthCheck (payloadOf words) (p.hdr.decode (words.take 6)) with _ | x
  swap
  · exact .inr ⟨x, fun l => ⟨{ l with header := p.hdr.decode (words.take 6) },
      (s2 l _).trans (runStages_cons_some (by rw [checkStage_eq, hl]) _)⟩⟩
  have s3 := fun (l : Latches) rest => (s2 l _).trans (runStages_cons_none (length_passes hl) rest)
  rcases hm : AcqMode.ofByte? mode with _ | m
  · exact .inr ⟨.hard (.unsupportedMode mode), fun l => ⟨{ l with header := p.hdr.decode (words.take 6) },
      (s3 l _).trans (runStages_cons_some (by rw [configuredUnpackStage, hm]) _)⟩⟩
  rcases unpackStage_cases p m (payloadOf words) default with ⟨h5, -⟩ | ⟨h5, k, -, h6, h7, h8, -⟩ | ⟨h5, h6, -⟩
  · exact .inr ⟨_, fun l => ⟨_, (s3 l _).trans (runStages_cons_some
      (by rw [configuredUnpackStage, hm]; exact unpackStage_length_error _ h5) _)⟩⟩
  · refine .inr ⟨.hard (.addressRange k (rawUnit p m (payloadOf words) k).addr.col
        (rawUnit p m (payloadOf words) k).addr.row), fun l => ?_⟩
    obtain ⟨l', hl'⟩ := unpackStage_address_error { l with header := p.hdr.decode (words.take 6) } h5 h6 h7 h8
    exact ⟨l', (s3 l _).trans (runStages_cons_some (by rw [configuredUnpackStage, hm]; exact hl') _)⟩
  have s4 := fun (l : Latches) rest => (s3 l _).trans (runStages_cons_none (unpack_passes hm h5 h6) rest)
  rcases timeStage_cases p (p.hdr.decode (words.take 6)) with ⟨e, -, ht⟩ | ⟨a, e, -, -, ht⟩ | ⟨a, b, hta, htb, ht⟩
  · exact .inr ⟨.hard e, fun l => ⟨_, (s4 l _).trans (runStages_cons_some (by rw [headerTimeStage_eq]; exact ht _) _)⟩⟩
  · exact .inr ⟨.hard e, fun l => ⟨_, (s4 l _).trans (runStages_cons_some (by rw [headerTimeStage_eq]; exact ht _) _)⟩⟩
  have s5 := fun (l : Latches) rest => (s4 l _).trans (runStages_cons_none (time_passes (l := { l with
    header := p.hdr.decode (words.take 6), cursor := (payloadOf words).length / p.unitWords m,
    recs := unitRecords p m (payloadOf words) }) hta htb) rest)
  rcases hitTimes_cases p.tsOverflow a b (suppressZero (unitRecords p m (payloadOf words))) with
    ⟨times, h9⟩ | ⟨before, x, after, e, h9, h10, h11⟩
  · have hc : Converts p mode words ⟨p.hdr.decode (words.take 6), (payloadOf words).length / p.unitWords m,
        unitRecords p m (payloadOf words),
        ((suppressZero (unitRecords p m (payloadOf words))).zip times).map fun x => hitEntry x.1 x.2, a, b⟩ :=
      ⟨h1, rfl, (acceptStop_eq_none _).1 ha, (lengthStop_eq_none _ _ _).1 hl,
        ⟨m, AcqMode.ofByte?_eq_some hm, h5, h6, rfl, rfl⟩, hta, htb, times, h9, rfl⟩
    exact .inl ⟨_, hc, convertStages_of_converts hc⟩
  · refine .inr ⟨.hard e, fun l => ?_⟩
    obtain ⟨l', hl'⟩ := appendHits_error (policy := p.tsOverflow) (before := before) (x := x) (e := e) after
      (l := { l with
        header := p.hdr.decode (words.take 6), cursor := (payloadOf words).length / p.unitWords m,
        recs := unitRecords p m (payloadOf words), frameStartPs := a, frameEndPs := b, hits := [] }) h10 h11
    refine ⟨l', (s5 l _).trans (runStages_cons_some ?_ _)⟩
    rw [hitStage]
    simp only [h9]
    exact hl'

/-- What an event looks like when the stages end well. -/
theorem execConvert_converts {s : State} {words : List Word} {L : Latches}
    (hw : eventWords s.params.byteOrder s.port.ev = .ok words) (h : Converts s.params s.acqMode words L) :
    execConvert s = .next { s with
      latches := L,
      out := s.out ++ [.event (outEvent s.params s.planeId s.port.ev.tags L), .response (.ok .converted)] } := by
  rw [execConvert, State.eventOperand, hw]
  simp only
  rw [runOperation_none (convertStages_of_converts h s.latches), emit_then_complete_eq]
  rfl

theorem execConvert_stops {s : State} {words : List Word} {l : Latches} {x : Stop}
    (hw : eventWords s.params.byteOrder s.port.ev = .ok words)
    (h : runStages (convertStages s.params s.acqMode words) s.latches = (l, some x)) :
    execConvert s = .next { s with latches := l, out := s.out ++ stopOutputs x } := by
  rw [execConvert, State.eventOperand, hw]
  simp only
  rw [runOperation_some h]

theorem execConvert_malformed {s : State} {k : Skip}
    (hw : eventWords s.params.byteOrder s.port.ev = .error k) :
    execConvert s = .next { s with out := s.out ++ [.diag k.diagnostic, .response (.skip k)] } := by
  rw [execConvert, State.eventOperand, hw]
  simp only
  rw [takeStop_eq, stopOutputs]

/-- All that CONVERT can do: skip a malformed event, stop at a stage, or convert. -/
theorem execConvert_cases (s : State) :
    (∃ k, eventWords s.params.byteOrder s.port.ev = .error k ∧
      execConvert s = .next { s with out := s.out ++ [.diag k.diagnostic, .response (.skip k)] }) ∨
    (∃ words x l, eventWords s.params.byteOrder s.port.ev = .ok words ∧
      runStages (convertStages s.params s.acqMode words) s.latches = (l, some x) ∧
      execConvert s = .next { s with latches := l, out := s.out ++ stopOutputs x }) ∨
    (∃ words L, eventWords s.params.byteOrder s.port.ev = .ok words ∧ Converts s.params s.acqMode words L ∧
      execConvert s = .next { s with
        latches := L,
        out := s.out ++ [.event (outEvent s.params s.planeId s.port.ev.tags L), .response (.ok .converted)] }) := by
  rcases hw : eventWords s.params.byteOrder s.port.ev with k | words
  · exact .inl ⟨k, rfl, execConvert_malformed hw⟩
  · rcases convertStages_cases s.params s.acqMode words with ⟨L, hL, -⟩ | ⟨x, hx⟩
    · exact .inr (.inr ⟨words, L, rfl, hL, execConvert_converts hw hL⟩)
    · obtain ⟨l, hl⟩ := hx s.latches
      exact .inr (.inl ⟨words, x, l, rfl, hl, execConvert_stops hw hl⟩)

end Sys2Proof.Machine
end

