-- ==== Sys2Proof/Laws/Decode.lean ====
section
/-! SUPPORT. The fields of a command word as numbers, and what each decode helper can do. -/

namespace Sys2Proof

theorem opcOf_toNat (w : Word) : (opcOf w).toNat = w.toNat % 2 ^ 8 := by
  simp [opcOf, BitVec.extractLsb'_toNat]

theorem modeOf_toNat (w : Word) : (modeOf w).toNat = w.toNat / 2 ^ 8 % 2 ^ 8 := by
  simp [modeOf, BitVec.extractLsb'_toNat, Nat.shiftRight_eq_div_pow]

theorem rsvOf_toNat (w : Word) : (rsvOf w).toNat = w.toNat / 2 ^ 16 := by
  have := w.isLt
  simp only [rsvOf, BitVec.extractLsb'_toNat, Nat.shiftRight_eq_div_pow]
  omega

theorem rsvOf_eq_zero (w : Word) : rsvOf w = 0 ↔ w.toNat / 2 ^ 16 = 0 := by
  rw [← BitVec.toNat_inj, rsvOf_toNat]
  rfl

theorem opcOf_eq (w : Word) {n : Nat} (hn : n < 256) : opcOf w = BitVec.ofNat 8 n ↔ w.toNat % 2 ^ 8 = n := by
  rw [← BitVec.toNat_inj, opcOf_toNat, BitVec.toNat_ofNat, Nat.mod_eq_of_lt hn]

theorem modeOf_eq_ofNat (w : Word) : modeOf w = BitVec.ofNat 8 (w.toNat / 2 ^ 8) := by
  rw [← BitVec.toNat_inj, modeOf_toNat, BitVec.toNat_ofNat]

/-- A command word is its three fields. -/
theorem fields_append (w : Word) : rsvOf w ++ modeOf w ++ opcOf w = w := by
  apply BitVec.eq_of_getLsbD_eq
  intro i hi
  simp only [rsvOf, modeOf, opcOf, BitVec.getLsbD_append, BitVec.getLsbD_extractLsb']
  by_cases h1 : i < 8 <;> by_cases h2 : i < 16 <;> grind

@[simp] theorem rsvOf_commandWord (m : ModeByte) (o : BitVec 8) : rsvOf (commandWord m o) = 0 := by
  apply BitVec.eq_of_getLsbD_eq
  intro i hi
  simp only [rsvOf, commandWord, BitVec.getLsbD_append, BitVec.getLsbD_extractLsb']
  grind

@[simp] theorem modeOf_commandWord (m : ModeByte) (o : BitVec 8) : modeOf (commandWord m o) = m := by
  apply BitVec.eq_of_getLsbD_eq
  intro i hi
  simp only [modeOf, commandWord, BitVec.getLsbD_append, BitVec.getLsbD_extractLsb']
  grind

@[simp] theorem opcOf_commandWord (m : ModeByte) (o : BitVec 8) : opcOf (commandWord m o) = o := by
  apply BitVec.eq_of_getLsbD_eq
  intro i hi
  simp only [opcOf, commandWord, BitVec.getLsbD_append, BitVec.getLsbD_extractLsb']
  grind

theorem decodeByMode_error {m : ModeByte} (h : 2 ≤ m.toNat) (a b : Instr) :
    decodeByMode m a b = .error (.unsupportedMode m) := by
  simp [decodeByMode, (AcqMode.ofByte?_eq_none m).2 h]

theorem decodeByMode_byte (m : AcqMode) (a b : Instr) :
    decodeByMode m.byte a b = .ok (match m with | .totOnly => a | .totToa => b) := by
  cases m <;> rfl

theorem decodeModeZero_error {w : Word} (h : modeOf w ≠ 0) (i : Instr) :
    decodeModeZero w i = .error (.illegalCommand w) := by
  rw [decodeModeZero, if_neg h]

end Sys2Proof
end

