-- ==== Sys2Proof/Laws/Exec.lean ====
section
/-! SUPPORT. All that an instruction and a step can do: the four ways an operation ends. -/

namespace Sys2Proof.Machine

/-- How an operation of the instruction `i` that starts in `s` ends in `t`. -/
inductive Ends (i : Instr) (s t : State) : Prop where
  /-- OK, with a result that is not CONVERTED. Only CFG_PLANE_ID and CFG_ACQ_MODE write a configuration register. -/
  | ok (r : Result) (l : Latches) (planeId : BitVec 32) (acqMode : ModeByte)
      (state : t = { s with
        planeId := planeId, acqMode := acqMode, latches := l, out := s.out ++ [.response (.ok r)] })
      (plain : r ≠ .converted) (plane : planeId ≠ s.planeId → i = .cfgPlaneId)
      (mode : acqMode ≠ s.acqMode → ∃ v, i = .cfgAcqMode v)
  /-- A hard error. -/
  | hard (e : HardError) (l : Latches)
      (state : t = { s with latches := l, out := s.out ++ [.response (.error e)] })
  /-- A skip of CONVERT. -/
  | skip (k : Skip) (l : Latches) (instr : i = .convert)
      (state : t = { s with latches := l, out := s.out ++ [.diag k.diagnostic, .response (.skip k)] })
  /-- A conversion of CONVERT. -/
  | converted (words : List Word) (l : Latches) (instr : i = .convert)
      (shape : eventWords s.params.byteOrder s.port.ev = .ok words)
      (converts : Converts s.params s.acqMode words l)
      (state : t = { s with
        latches := l,
        out := s.out ++ [.event (outEvent s.params s.planeId s.port.ev.tags l), .response (.ok .converted)] })

/-- An operation that ends OK without touching the configuration. -/
theorem Ends.of_ok {i : Instr} {s : State} (r : Result) (l : Latches) (h : r ≠ .converted) :
    Ends i s { s with latches := l, out := s.out ++ [.response (.ok r)] } :=
  .ok r l s.planeId s.acqMode rfl h (fun h => absurd rfl h) (fun h => absurd rfl h)

/-- An operation made of one stage: a hard error, or an OK result. -/
theorem runOperation_ends {i : Instr} {s : State} {stage : Stage} {r : Latches → Result}
    (hs : (∃ l, stage s.latches = (l, none)) ∨ ∃ l e, stage s.latches = (l, some (.hard e)))
    (hr : ∀ l, r l ≠ .converted) :
    ∃ t, runOperation [stage] (fun l => complete (r l)) s = .next t ∧ Ends i s t := by
  rcases hs with ⟨l, h⟩ | ⟨l, e, h⟩
  · rw [runOperation_none (runStages_cons_none h [])]
    exact ⟨_, rfl, Ends.of_ok (r l) l (hr l)⟩
  · rw [runOperation_some (runStages_cons_some h [])]
    exact ⟨_, rfl, .hard e l rfl⟩

theorem finish_ends {i : Instr} {s : State} {o : Except HardError Result} (ho : o ≠ .ok .converted) :
    ∃ t, finish o s = .next t ∧ Ends i s t := by
  cases o with
  | ok r => exact ⟨_, rfl, Ends.of_ok r s.latches (fun h => ho (by rw [h]))⟩
  | error e => exact ⟨_, rfl, .hard e s.latches rfl⟩

theorem unpackStage_ends (p : Params) (m : AcqMode) (payload : List Word) (l : Latches) :
    (∃ l', unpackStage p m payload l = (l', none)) ∨ ∃ l' e, unpackStage p m payload l = (l', some (.hard e)) := by
  rcases unpackStage_cases p m payload l with ⟨-, h⟩ | ⟨-, k, l', -, -, -, h⟩ | ⟨-, -, h⟩
  · exact .inr ⟨_, _, h⟩
  · exact .inr ⟨_, _, h⟩
  · exact .inl ⟨_, h⟩

/-- Every operation answers a next state, in one of the four ways. -/
theorem exec_cases (i : Instr) (s : State) : ∃ t, exec i s = .next t ∧ Ends i s t := by
  cases i with
  | hdr =>
    refine runOperation_ends ?_ (fun l => by simp)
    by_cases h : 6 ≤ s.port.words.length
    · exact .inl ⟨_, headerStage_ok h _⟩
    · exact .inr ⟨_, _, headerStage_error (by rw [State.wordsOperand_eq]; omega) _⟩
  | frameTot => exact runOperation_ends (unpackStage_ends _ _ _ _) (fun l => by simp)
  | frameToa => exact runOperation_ends (unpackStage_ends _ _ _ _) (fun l => by simp)
  | tsFrame =>
    refine runOperation_ends ?_ (fun l => by simp)
    rcases timeStage_cases s.params s.headerOperand with ⟨e, -, ht⟩ | ⟨a, e, -, -, ht⟩ | ⟨a, b, -, -, ht⟩
    · exact .inr ⟨_, _, ht _⟩
    · exact .inr ⟨_, _, ht _⟩
    · exact .inl ⟨_, ht _⟩
  | tsHitToa =>
    refine finish_ends ?_
    cases hitFromEnd s.params.tsOverflow s.endOperand s.arrivalOperand <;> simp [Except.map]
  | recArrival =>
    refine finish_ends ?_
    cases arrivalOf s.recordOperand <;> simp [Except.map]
  | convert =>
    simp only [exec]
    rcases execConvert_cases s with ⟨k, -, h⟩ | ⟨words, x, l, -, -, h⟩ | ⟨words, L, h1, h2, h⟩
    · exact ⟨_, h, .skip k s.latches rfl rfl⟩
    · cases x with
      | skip k => exact ⟨_, h, .skip k l rfl rfl⟩
      | hard e => exact ⟨_, h, .hard e l rfl⟩
    · exact ⟨_, h, .converted words L rfl h1 h2 rfl⟩
  | accept => exact ⟨_, rfl, Ends.of_ok _ s.latches (by simp)⟩
  | tsHitTot => exact ⟨_, rfl, Ends.of_ok _ s.latches (by simp)⟩
  | filter => exact ⟨_, rfl, Ends.of_ok _ s.latches (by simp)⟩
  | recValue => exact ⟨_, rfl, Ends.of_ok _ s.latches (by simp)⟩
  | recMode => exact ⟨_, rfl, Ends.of_ok _ s.latches (by simp)⟩
  | cfgPlaneId =>
    exact ⟨_, rfl, .ok .noValue s.latches s.port.v s.acqMode rfl (by simp) (fun _ => rfl) (fun h => absurd rfl h)⟩
  | cfgAcqMode v =>
    exact ⟨_, rfl, .ok .noValue s.latches s.planeId v rfl (by simp) (fun h => absurd rfl h) (fun _ => ⟨v, rfl⟩)⟩

/-- If an instruction answers `t`, it ends in `t` in one of the four ways. -/
theorem exec_ends {i : Instr} {s t : State} (h : exec i s = .next t) : Ends i s t := by
  obtain ⟨t', h', he⟩ := exec_cases i s
  rw [h] at h'
  cases h'
  exact he

/-! ### The queue: no operation reads or writes the requests behind it -/

theorem runOperation_issue {stages : List Stage} {f : Latches → State → Effect} {s t : State} {r : Request}
    (hf : ∀ l u, f l (s.writeLatches l) = .next u → f l ((s.issue r).writeLatches l) = .next (u.issue r))
    (h : runOperation stages f s = .next t) : runOperation stages f (s.issue r) = .next (t.issue r) := by
  rcases hr : runStages stages s.latches with ⟨l, _ | x⟩
  · rw [runOperation_none hr] at h
    rw [runOperation_none (s := s.issue r) hr]
    exact hf l t h
  · rw [runOperation_some hr] at h
    rw [runOperation_some (s := s.issue r) hr]
    cases h
    rfl

theorem finish_issue {o : Except HardError Result} {s t : State} {r : Request} (h : finish o s = .next t) :
    finish o (s.issue r) = .next (t.issue r) := by
  cases o <;> (cases h; rfl)

/-- An operation does the same whether or not a later request waits behind it. -/
theorem exec_issue {i : Instr} {s t : State} (r : Request) (h : exec i s = .next t) :
    exec i (s.issue r) = .next (t.issue r) := by
  cases i with
  | convert =>
    simp only [exec, execConvert, State.eventOperand_eq, State.issue_port, State.issue_params,
      State.issue_acqMode] at h ⊢
    split at h
    · cases h; rfl
    · exact runOperation_issue (fun l u hu => by cases hu; rfl) h
  | hdr => exact runOperation_issue (fun l u hu => by cases hu; rfl) h
  | frameTot => exact runOperation_issue (fun l u hu => by cases hu; rfl) h
  | frameToa => exact runOperation_issue (fun l u hu => by cases hu; rfl) h
  | tsFrame => exact runOperation_issue (fun l u hu => by cases hu; rfl) h
  | tsHitToa => exact finish_issue h
  | recArrival => exact finish_issue h
  | _ => cases h; rfl

/-- The state an operation starts in: the request taken, the latches undefined, its operands on the port. -/
theorem step_of_decoded {s : State} {r : Request} {rest : List Request} {i : Instr} (h1 : s.pending = r :: rest)
    (h2 : decodeWord r.cmd = .ok i) : step s = exec i ((s.beginOperation rest).loadPort r.operands) := by
  simp [step, h1, h2]

theorem step_of_rejected {s : State} {r : Request} {rest : List Request} {e : HardError}
    (h1 : s.pending = r :: rest) (h2 : decodeWord r.cmd = .error e) :
    step s = .next { s.beginOperation rest with out := s.out ++ [.response (.error e)] } := by
  simp [step, h1, h2, rejectCommand_eq]

theorem step_of_idle {s : State} (h : s.pending = []) : step s = .next s := by
  simp [step, h, awaitRequest]

/-- All that a step can do: wait, reject a command, or run the decoded instruction. -/
theorem step_cases {s t : State} (h : step s = .next t) :
    (s.pending = [] ∧ t = s) ∨
    (∃ r rest e, s.pending = r :: rest ∧ decodeWord r.cmd = .error e ∧
      t = { s.beginOperation rest with out := s.out ++ [.response (.error e)] }) ∨
    (∃ r rest i, s.pending = r :: rest ∧ decodeWord r.cmd = .ok i ∧
      exec i ((s.beginOperation rest).loadPort r.operands) = .next t ∧
      Ends i ((s.beginOperation rest).loadPort r.operands) t) := by
  rcases hp : s.pending with _ | ⟨r, rest⟩
  · rw [step_of_idle hp] at h
    cases h
    exact .inl ⟨rfl, rfl⟩
  · rcases hd : decodeWord r.cmd with e | i
    · rw [step_of_rejected hp hd] at h
      cases h
      exact .inr (.inl ⟨r, rest, e, rfl, hd, rfl⟩)
    · rw [step_of_decoded hp hd] at h
      exact .inr (.inr ⟨r, rest, i, rfl, hd, h, exec_ends h⟩)

end Sys2Proof.Machine
end

