-- ==== Sys2Proof/Laws/Instances.lean ====
section
/-! SUPPORT. All that a move and a list of moves can do to the instances of a system. -/

namespace Sys2Proof.Machine

/-- The state a step leads to. Every step answers one, `step_advance`. -/
def State.advance (s : State) : State :=
  match step s with
  | .next t => t
  | .fault _ => s
  | .refused _ => s

theorem step_advance (s : State) : step s = .next s.advance := by
  have ⟨t, h⟩ : ∃ t, step s = .next t := by
    rcases hp : s.pending with _ | ⟨r, rest⟩
    · exact ⟨_, step_of_idle hp⟩
    · rcases hd : decodeWord r.cmd with e | i
      · exact ⟨_, step_of_rejected hp hd⟩
      · obtain ⟨t, ht, -⟩ := exec_cases i ((s.beginOperation rest).loadPort r.operands)
        exact ⟨t, (step_of_decoded hp hd).trans ht⟩
  simp only [State.advance, h]

/-- What a move does to the instance it names. -/
def Move.act : Move → State → State
  | .construct _, s => s
  | .reset _, s => s.applyReset
  | .issue _ r, s => s.issue r
  | .run _, s => s.advance

@[simp] theorem Move.act_reset (n : Nat) (s : State) : (Move.reset n).act s = s.applyReset := rfl
@[simp] theorem Move.act_issue (n : Nat) (r : Request) (s : State) : (Move.issue n r).act s = s.issue r := rfl
@[simp] theorem Move.act_run (n : Nat) (s : State) : (Move.run n).act s = s.advance := rfl

/-- A move on instance `n` acts on that instance, if it exists, and on nothing else. -/
theorem System.move_eq (sys : System) {m : Move} {n : Nat} (h : m.target = some n) :
    sys.move m = .next ⟨sys.instances.modify n m.act⟩ := by
  cases m with
  | construct p => cases h
  | reset k => cases h; rfl
  | issue k r => cases h; rfl
  | run k =>
    obtain rfl : k = n := by simpa [Move.target] using h
    simp only [System.move, System.runAt]
    rcases hk : sys.instances[k]? with _ | s
    · simp only
      rw [List.modify_eq_self (List.getElem?_eq_none_iff.1 hk)]
    · obtain ⟨hl, rfl⟩ := List.getElem?_eq_some_iff.1 hk
      simp only [step_advance]
      congr 2
      apply List.ext_getElem?
      intro j
      rw [List.getElem?_modify, List.getElem?_set]
      by_cases hj : k = j
      · subst hj
        simp [hl]
      · simp [hj]

/-- A list of moves on instances answers the instances that each instance's own moves, in their order, lead to. -/
theorem System.moves_eq (moves : List Move) (sys : System) (h : ∀ m ∈ moves, m.target ≠ none) :
    ∃ sys', sys.moves moves = .next sys' ∧ ∀ n : Nat, sys'.instances[n]? = (sys.instances[n]?).map fun s =>
      (moves.filter fun m => m.target == some n).foldl (fun s m => m.act s) s := by
  induction moves generalizing sys with
  | nil => exact ⟨sys, rfl, by simp⟩
  | cons m moves ih =>
    obtain ⟨k, hk⟩ : ∃ k, m.target = some k := Option.ne_none_iff_exists'.1 (h m (by simp))
    obtain ⟨sys', h1, h2⟩ := ih ⟨sys.instances.modify k m.act⟩ fun x hx => h x (by simp [hx])
    refine ⟨sys', by simp only [System.moves, System.move_eq sys hk]; exact h1, fun n => ?_⟩
    rw [h2 n]
    simp only [List.getElem?_modify]
    by_cases hn : k = n
    · subst hn
      simp only [hk, beq_self_eq_true, List.filter_cons_of_pos, List.foldl_cons, if_true]
      cases sys.instances[k]? <;> rfl
    · have hn' : (m.target == some n) = false := by simp [hk, hn]
      simp only [List.filter_cons, hn', hn, if_false]
      cases sys.instances[n]? <;> rfl

/-- Moves after moves. -/
theorem System.moves_append {before after : List Move} {sys sys' : System} (h : sys.moves before = .next sys') :
    sys.moves (before ++ after) = sys'.moves after := by
  induction before generalizing sys with
  | nil => cases h; rfl
  | cons m before ih =>
    simp only [System.moves, List.cons_append] at h ⊢
    split at h
    · exact ih h
    · cases h
    · cases h

end Sys2Proof.Machine
end

