-- ==== Sys2Proof/Laws/PerInstr.lean ====
section
/-! SUPPORT. The family `tableRow`: the command word of every instruction carries its row of `spec/opcode_table.json`. -/

namespace Sys2Proof.Laws

/-- The row of an instruction: its mask and its match, as the table writes them (R63). -/
def rowOf : Instr → Word × Word
  | .hdr => (0xFFFFFFFF, 0x00000001)
  | .frameTot => (0xFFFFFFFF, 0x00000002)
  | .frameToa => (0xFFFFFFFF, 0x00000102)
  | .accept => (0xFFFFFFFF, 0x00000003)
  | .tsFrame => (0xFFFFFFFF, 0x00000004)
  | .tsHitTot => (0xFFFFFFFF, 0x00000005)
  | .tsHitToa => (0xFFFFFFFF, 0x00000105)
  | .filter => (0xFFFFFFFF, 0x00000006)
  | .convert => (0xFFFFFFFF, 0x00000007)
  | .recValue => (0xFFFFFFFF, 0x00000008)
  | .recMode => (0xFFFFFFFF, 0x00000009)
  | .recArrival => (0xFFFFFFFF, 0x0000000A)
  | .cfgPlaneId => (0xFFFFFFFF, 0x00000010)
  | .cfgAcqMode _ => (0xFFFF00FF, 0x00000011)

/-- The command word of `i` has the row's match under the row's mask, and it is a well-formed command: RSV 0 (R60). -/
def tableRow.Statement (i : Instr) : Prop :=
  encode i &&& (rowOf i).1 = (rowOf i).2 ∧ rsvOf (encode i) = 0

theorem tableRow.hdr : tableRow.Statement .hdr := ⟨by decide, by decide⟩
theorem tableRow.frameTot : tableRow.Statement .frameTot := ⟨by decide, by decide⟩
theorem tableRow.frameToa : tableRow.Statement .frameToa := ⟨by decide, by decide⟩
theorem tableRow.accept : tableRow.Statement .accept := ⟨by decide, by decide⟩
theorem tableRow.tsFrame : tableRow.Statement .tsFrame := ⟨by decide, by decide⟩
theorem tableRow.tsHitTot : tableRow.Statement .tsHitTot := ⟨by decide, by decide⟩
theorem tableRow.tsHitToa : tableRow.Statement .tsHitToa := ⟨by decide, by decide⟩
theorem tableRow.filter : tableRow.Statement .filter := ⟨by decide, by decide⟩
theorem tableRow.convert : tableRow.Statement .convert := ⟨by decide, by decide⟩
theorem tableRow.recValue : tableRow.Statement .recValue := ⟨by decide, by decide⟩
theorem tableRow.recMode : tableRow.Statement .recMode := ⟨by decide, by decide⟩
theorem tableRow.recArrival : tableRow.Statement .recArrival := ⟨by decide, by decide⟩
theorem tableRow.cfgPlaneId : tableRow.Statement .cfgPlaneId := ⟨by decide, by decide⟩

theorem tableRow.cfgAcqMode (v : ModeByte) : tableRow.Statement (.cfgAcqMode v) := by
  revert v
  unfold tableRow.Statement
  decide

end Sys2Proof.Laws
end

