-- ==== Sys2Proof/Laws/Responses.lean ====
section
/-! SUPPORT. What each operation's response says about its operands, and what an event's hits are made of. -/

namespace Sys2Proof.Machine

/-- The output an operation added, given two forms of what has left the block. -/
theorem response_of_out {out : List Output} {r r' : Response}
    (h : out ++ [.response r] = out ++ [.response r']) : r' = r := by
  simpa using h.symm

/-- HDR answers the header of at least six words, or a hard error. -/
theorem hdr_responds {s t : State} {r : Response} (h : exec .hdr s = .next t) (ho : t.out = s.out ++ [.response r]) :
    (6 ≤ s.port.words.length ∧ r = .ok (.header (s.params.hdr.decode (s.port.words.take 6)))) ∨
      ∃ e, r = .error e := by
  simp only [exec, execHdr, State.wordsOperand_eq] at h
  by_cases h6 : 6 ≤ s.port.words.length
  · rw [runOperation_none (runStages_cons_none (headerStage_ok h6 s.latches) [])] at h
    cases h
    exact .inl ⟨h6, response_of_out ho⟩
  · rw [runOperation_some (runStages_cons_some (headerStage_error (by omega) s.latches) [])] at h
    cases h
    exact .inr ⟨_, response_of_out ho⟩

/-- FRAME of a mode. -/
def frameOf : AcqMode → Instr
  | .totOnly => .frameTot
  | .totToa => .frameToa

theorem exec_frameOf (m : AcqMode) (s : State) : exec (frameOf m) s =
    runOperation [unpackStage s.params m s.port.payload] (fun l => complete (.records l.recs)) s := by
  cases m <;> rfl

/-- FRAME answers the record of every unit, each at a valid address, or the hard error that the unpacker ends in
whatever the latches hold. -/
theorem frame_responds {m : AcqMode} {s t : State} {r : Response} (h : exec (frameOf m) s = .next t)
    (ho : t.out = s.out ++ [.response r]) :
    (s.port.payload.length % s.params.unitWords m = 0 ∧
      (∀ j, j < s.port.payload.length / s.params.unitWords m →
        (rawUnit s.params m s.port.payload j).addr.valid = true) ∧
      r = .ok (.records (unitRecords s.params m s.port.payload))) ∨
    ∃ e, r = .error e ∧ ∀ l, ∃ l', unpackStage s.params m s.port.payload l = (l', some (.hard e)) := by
  rw [exec_frameOf] at h
  rcases unpackStage_cases s.params m s.port.payload s.latches with ⟨h5, hx⟩ | ⟨h5, k, l', h6, h7, h8, hx⟩ | ⟨h5, h6, hx⟩
  · rw [runOperation_some (runStages_cons_some hx [])] at h
    cases h
    exact .inr ⟨_, response_of_out ho, fun l => ⟨_, unpackStage_length_error l h5⟩⟩
  · rw [runOperation_some (runStages_cons_some hx [])] at h
    cases h
    exact .inr ⟨_, response_of_out ho, fun l => unpackStage_address_error l h5 h6 h7 h8⟩
  · rw [runOperation_none (runStages_cons_none hx [])] at h
    cases h
    exact .inl ⟨h5, h6, response_of_out ho⟩

/-- TS_FRAME answers both frame times, or the hard error that the time base ends in whatever the latches hold. -/
theorem tsFrame_responds {s t : State} {r : Response} (h : exec .tsFrame s = .next t)
    (ho : t.out = s.out ++ [.response r]) :
    (∃ a b, toPs s.params.tsOverflow s.port.h.shutterOpen = .ok a ∧
      toPs s.params.tsOverflow s.port.h.shutterClose = .ok b ∧ r = .ok (.frameTimes a b)) ∨
    ∃ e, r = .error e ∧ ∀ l, ∃ l', timeStage s.params s.port.h l = (l', some (.hard e)) := by
  simp only [exec, execTsFrame, State.headerOperand_eq] at h
  rcases timeStage_cases s.params s.port.h with ⟨e, -, hx⟩ | ⟨a, e, -, -, hx⟩ | ⟨a, b, h5, h6, hx⟩
  · rw [runOperation_some (runStages_cons_some (hx _) [])] at h
    cases h
    exact .inr ⟨_, response_of_out ho, fun l => ⟨_, hx l⟩⟩
  · rw [runOperation_some (runStages_cons_some (hx _) [])] at h
    cases h
    exact .inr ⟨_, response_of_out ho, fun l => ⟨_, hx l⟩⟩
  · rw [runOperation_none (runStages_cons_none (hx _) [])] at h
    cases h
    exact .inl ⟨a, b, h5, h6, response_of_out ho⟩

/-- TS_HIT.TOA answers what `hitFromEnd` answers. -/
theorem tsHitToa_responds {s t : State} {r : Response} (h : exec .tsHitToa s = .next t)
    (ho : t.out = s.out ++ [.response r]) :
    (∃ x, hitFromEnd s.params.tsOverflow s.port.endPs s.port.arrival = .ok x ∧ r = .ok (.timestamp x)) ∨
      ∃ e, hitFromEnd s.params.tsOverflow s.port.endPs s.port.arrival = .error e ∧ r = .error e := by
  simp only [exec, execTsHitToa, State.endOperand_eq, State.arrivalOperand_eq] at h
  rcases hx : hitFromEnd s.params.tsOverflow s.port.endPs s.port.arrival with e | x
  · rw [hx] at h
    cases h
    exact .inr ⟨e, rfl, response_of_out ho⟩
  · rw [hx] at h
    cases h
    exact .inl ⟨x, rfl, response_of_out ho⟩

/-- Every hit of a converted frame has a nonzero magnitude and the time of a record of the configured mode. -/
theorem Converts.hits_spec {p : Params} {mode : ModeByte} {words : List Word} {L : Latches}
    (h : Converts p mode words L) : ∃ m : AcqMode, mode = m.byte ∧ ∀ hit ∈ L.hits, hit.tot ≠ 0 ∧
      ∃ r : PixelRecord, r.acqMode = m ∧
        hitTime p.tsOverflow L.frameStartPs L.frameEndPs r = .ok hit.timestampPs := by
  obtain ⟨-, -, -, -, ⟨m, hm, -, -, -, h8⟩, -, -, times, h11, h12⟩ := h
  refine ⟨m, hm, ?_⟩
  rw [h12]
  intro hit hh
  obtain ⟨⟨r, t⟩, hrt, rfl⟩ := List.mem_map.1 hh
  obtain ⟨hmem, h0⟩ := mem_suppressZero.1 (List.of_mem_zip hrt).1
  refine ⟨h0, r, ?_, (List.forall₂_iff_zip.1 h11).2 hrt⟩
  rw [h8, unitRecords, List.mem_map] at hmem
  obtain ⟨k, -, rfl⟩ := hmem
  exact Params.decodeUnit_acqMode _ _ _ _

end Sys2Proof.Machine
end

