-- ==== Sys2Proof/Tests/Slice0.lean ====
section
/-! SUPPORT. Tests with expected values from `95_test_vectors.md`, the well-formedness smoke tests, and for each
obligation with hypotheses a theorem `test_witness_<its name>` that meets them, clause by clause, at boundary values. -/

namespace Sys2Proof.Tests

open Sys2Proof Sys2Proof.Machine

/-! ## Helpers -/

/-- A block with the given parameters, operands and `cfg.acq_mode`. -/
def block (o : Operands) (p : Params := Params.reference) (m : ModeByte := 0x01) : State :=
  { State.construct p with port := o, acqMode := m }

/-- What an operation sent. -/
def outputs (e : Effect) : List Output :=
  match e with
  | .next t => t.out
  | .fault _ => []
  | .refused _ => []

/-- The hits, times and sequence number of the events among the outputs. -/
def eventView (os : List Output) : List (List (Nat × Nat × Nat × Nat) × Nat × Nat × Nat) :=
  os.filterMap fun o => match o with
    | .event ev => some (ev.plane.hits.map fun x => (x.col.toNat, x.row.toNat, x.tot, x.timestampPs.toNat),
        ev.frameStartPs.toNat, ev.frameEndPs.toNat, ev.sequenceNumber.toNat)
    | .diag _ => none
    | .response _ => none

def withWords (ws : List Word) : Operands := { idleOperands with words := ws }
def withPayload (ws : List Word) : Operands := { idleOperands with payload := ws }
def withHeader (h : FrameHeader) : Operands := { idleOperands with h := h }
def withRecord (r : PixelRecord) : Operands := { idleOperands with r := r }
def withRecords (rs : List PixelRecord) : Operands := { idleOperands with recs := rs }
def withBlocks (bs : List (List Byte)) : Operands := { idleOperands with ev := ⟨bs, []⟩ }

/-- An event of one block, given by its words in little-endian order (R76). -/
def withFrame (ws : List Word) : Operands := withBlocks [blockOfWords .little ws]

/-- The S1 header words: open 100, close 200, frame id 1, T0 set. -/
def frameA : List Word := [0x00000000, 0x00000064, 0x000000C8, 0x00000001, 0x00000000, 0x00000001]

/-- The header they encode. -/
def headerA : FrameHeader := ⟨0, 100, 200, 1, 0, true⟩

/-- A request beside idle operands. -/
def command (w : Word) : Request := ⟨w, idleOperands⟩

/-- The reset block with one request pending. -/
def pendingBlock (r : Request) : State := { State.reset with pending := [r] }

/-! ## Well-formedness: each check refuses an ill-formed term -/

theorem test_wf_reference : Params.reference.lawful = true := by decide
theorem test_wf_slice_word : Slice.legal 6 ⟨6, 0, 0⟩ = false := by decide
theorem test_wf_slice_order : Slice.legal 6 ⟨0, 3, 4⟩ = false := by decide
theorem test_wf_slice_high : Slice.legal 6 ⟨0, 32, 0⟩ = false := by decide
theorem test_wf_map_empty : FieldMap.legal 6 64 [] = false := by decide
theorem test_wf_map_wide : FieldMap.legal 6 1 (oneSlice 5 1 0) = false := by decide
theorem test_wf_overlap : noOverlap [⟨0, 7, 0⟩, ⟨0, 9, 7⟩] = false := by decide
theorem test_wf_header_t0 : HdrLayout.lawful { HdrLayout.reference with t0 := oneSlice 5 1 0 } = false := by decide
theorem test_wf_header_overlap :
    HdrLayout.lawful { HdrLayout.reference with trig := oneSlice 1 31 0 } = false := by decide
theorem test_wf_address :
    AddrSource.legal 2 (.explicit [⟨0, 31, 0⟩, ⟨1, 0, 0⟩] (oneSlice 1 4 1)) = false := by decide
theorem test_wf_unit_empty : Params.unitLawful { Params.reference with unitWordsTot := 0 } .totOnly = false := by decide
theorem test_wf_unit_overlap :
    Params.unitLawful { Params.reference with arrivalMap := oneSlice 0 31 0 } .totToa = false := by decide
theorem test_wf_arrival_missing :
    Params.unitLawful { Params.reference with arrivalMap := [] } .totToa = false := by decide
theorem test_wf_modes_differ :
    Params.lawful { Params.reference with
      unitTot := ⟨.explicit (oneSlice 0 5 0) (oneSlice 0 9 6), oneSlice 1 31 0⟩
      unitWordsTot := 2
      unitToa := ⟨.positional .colFastest, oneSlice 0 0 0⟩ } = false := by decide
theorem test_wf_header_field :
    FrameHeader.fits Params.reference { headerA with shutterOpen := 2 ^ 32 } = false := by decide
theorem test_wf_record_address : PixelRecord.fits Params.reference (.tot ⟨64, 0⟩ 1) = false := by decide
theorem test_wf_record_magnitude : PixelRecord.fits Params.reference (.tot ⟨63, 15⟩ 65536) = false := by decide
theorem test_wf_record_arrival : PixelRecord.fits Params.reference (.toa ⟨63, 15⟩ 1 (2 ^ 32)) = false := by decide
theorem test_wf_operands :
    Operands.fits Params.reference { idleOperands with arrival := 2 ^ 32 } = false ∧
      Operands.fits Params.reference idleOperands = true := by decide
/-- No ill-formed instruction exists: CFG_ACQ_MODE takes every value of MODE (R64). -/
theorem test_wf_instruction : Instr.wellFormed (.cfgAcqMode 0xFF) = true := by decide

/-! ## Decoding: words written out bit by bit from R60 and R63 (2.1) -/

theorem test_decode_hdr : decodeWord 0b00000000000000000000000000000001 = .ok .hdr := by decide
theorem test_decode_frameTot : decodeWord 0b00000000000000000000000000000010 = .ok .frameTot := by decide
theorem test_decode_frameToa : decodeWord 0b00000000000000000000000100000010 = .ok .frameToa := by decide
theorem test_decode_accept : decodeWord 0b00000000000000000000000000000011 = .ok .accept := by decide
theorem test_decode_tsFrame : decodeWord 0b00000000000000000000000000000100 = .ok .tsFrame := by decide
theorem test_decode_tsHitTot : decodeWord 0b00000000000000000000000000000101 = .ok .tsHitTot := by decide
theorem test_decode_tsHitToa : decodeWord 0b00000000000000000000000100000101 = .ok .tsHitToa := by decide
theorem test_decode_filter : decodeWord 0b00000000000000000000000000000110 = .ok .filter := by decide
theorem test_decode_convert : decodeWord 0b00000000000000000000000000000111 = .ok .convert := by decide
theorem test_decode_recValue : decodeWord 0b00000000000000000000000000001000 = .ok .recValue := by decide
theorem test_decode_recMode : decodeWord 0b00000000000000000000000000001001 = .ok .recMode := by decide
theorem test_decode_recArrival : decodeWord 0b00000000000000000000000000001010 = .ok .recArrival := by decide
theorem test_decode_cfgPlaneId : decodeWord 0b00000000000000000000000000010000 = .ok .cfgPlaneId := by decide
theorem test_decode_cfgAcqMode :
    decodeWord 0b00000000000000001111111100010001 = .ok (.cfgAcqMode 0xFF) := by decide

/-- The rejected words of 2.1; 0x00010102 shows that RSV is checked before MODE. -/
theorem test_decode_rejected :
    decodeWord 0x00000202 = .error (.unsupportedMode 0x02) ∧ decodeWord 0x0000FF02 = .error (.unsupportedMode 0xFF) ∧
    decodeWord 0x00000305 = .error (.unsupportedMode 0x03) ∧
    [0x00000101, 0x00010001, 0x00010102, 0x00000000, 0x0000000B, 0x00000012, 0x000000FF, 0x00010011, 0x00000110].all
      (fun w => decodeWord w = .error (.illegalCommand w)) = true := by decide

theorem test_table_word : decodeTableWord 32 0x00000105 = some .tsHitToa ∧ decodeTableWord 32 0x0000000B = none := by
  decide

/-- `frame.mode 0xFF` and `cfg.toa` of R77. -/
theorem test_pseudo : pseudoFrameMode 0xFF = 0x0000FF02 ∧ pseudoCfgToa = 0x00000111 := by decide

/-! ## One step per instruction (2.2 to 2.11) -/

/-- H5: bit 0 of word 5 is 0, the other bits are ignored. -/
theorem test_hdr_t0_clear :
    outputs (exec .hdr (block (withWords [0x00000000, 0x00000064, 0x000000C8, 0x00000001, 0x00000000, 0xFFFFFFFE]))) =
      [.response (.ok (.header { headerA with t0Flag := false }))] := by decide

/-- H2. -/
theorem test_hdr_truncated :
    outputs (exec .hdr (block (withWords [0, 0, 0, 0, 0]))) = [.response (.error (.headerTruncated 5))] := by decide

/-- F7: unassigned bits are ignored. -/
theorem test_frameTot_unassigned :
    outputs (exec .frameTot (block (withPayload [0x00070143, 0x000A0FFF]))) =
      [.response (.ok (.records [.tot ⟨3, 5⟩ 7, .tot ⟨63, 15⟩ 10]))] := by decide

/-- F14b: positional addressing, row fastest. -/
theorem test_frameTot_positional :
    (unpackStage { Params.reference with unitTot := ⟨.positional .rowFastest, oneSlice 0 31 16⟩ } .totOnly
        (List.replicate 18 0x00010000) idleLatches).1.recs.drop 15 =
      [.tot ⟨0, 15⟩ 1, .tot ⟨1, 0⟩ 1, .tot ⟨1, 1⟩ 1] := by decide

/-- F11. -/
theorem test_frameToa_units :
    outputs (exec .frameToa (block (withPayload [0x00070143, 0x00000032, 0x000A0FFF, 0xFFFFFFFF]))) =
      [.response (.ok (.records [.toa ⟨3, 5⟩ 7 50, .toa ⟨63, 15⟩ 10 4294967295]))] := by decide

/-- F10: a leftover word. -/
theorem test_frameToa_leftover :
    outputs (exec .frameToa (block (withPayload [0x00070143, 0x00000032, 0x00010000]))) =
      [.response (.error (.payloadLength 3 2 0x01))] := by decide

/-- 2.5: equal timestamps are accepted. -/
theorem test_accept_equal :
    outputs (exec .accept (block (withHeader ⟨0, 5, 5, 0, 0, true⟩))) = [.response (.ok (.verdict .accepted))] := by
  decide

/-- 2.5: T0 is tested first. -/
theorem test_accept_not_synced :
    outputs (exec .accept (block (withHeader ⟨0, 200, 100, 0, 0, false⟩))) =
      [.response (.ok (.verdict .rejectNotSynced))] := by decide

/-- S1. -/
theorem test_tsFrame :
    outputs (exec .tsFrame (block (withHeader headerA))) =
      [.response (.ok (.frameTimes 1000000 2000000))] := by decide

/-- 2.6, `wrap64`. -/
theorem test_tsFrame_wrap :
    outputs (exec .tsFrame (block (withHeader ⟨0, 1844674407370956, 2 ^ 60, 0, 0, true⟩)
        { Params.reference with tsOverflow := .wrap64 })) = [.response (.ok (.frameTimes 8384 0))] := by decide

/-- 2.7: the exact sum may pass 2^64. -/
theorem test_tsHitTot_large :
    outputs (exec .tsHitTot (block { idleOperands with startPs := 18446744073709551615, endPs := 18446744073709551615 }))
      = [.response (.ok (.timestamp 18446744073709551615))] := by decide

/-- 2.7, `wrap64`. -/
theorem test_tsHitTot_wrap :
    outputs (exec .tsHitTot (block
        { idleOperands with startPs := 18446744073709551615, endPs := 18446744073709551615 }
        { Params.reference with tsOverflow := .wrap64 })) =
      [.response (.ok (.timestamp 9223372036854775807))] := by decide

/-- S3. -/
theorem test_tsHitToa :
    outputs (exec .tsHitToa (block { idleOperands with endPs := 2000000, arrival := 50 })) =
      [.response (.ok (.timestamp 1500000))] := by decide

/-- 2.8, `wrap64`. -/
theorem test_tsHitToa_wrap :
    outputs (exec .tsHitToa (block { idleOperands with endPs := 2000000, arrival := 4294967295 }
        { Params.reference with tsOverflow := .wrap64 })) =
      [.response (.ok (.timestamp 18446701124038601616))] := by decide

/-- 2.9: mixed variants are kept, zero magnitudes of either dropped. -/
theorem test_filter :
    outputs (exec .filter (block (withRecords [.tot ⟨3, 5⟩ 7, .toa ⟨1, 1⟩ 0 9, .toa ⟨4, 4⟩ 1 0, .tot ⟨0, 0⟩ 0]))) =
      [.response (.ok (.records [.tot ⟨3, 5⟩ 7, .toa ⟨4, 4⟩ 1 0]))] := by decide

/-- P2: the third unit is filtered, the times are frame end minus arrival. -/
theorem test_convert_toa :
    eventView (outputs (exec .convert (block (withFrame [0x00000000, 0x000003E8, 0x000007D0, 0x00000008, 0x00000004,
      0x00000001, 0x00070143, 0x00000032, 0x00010000, 0x00000000, 0x00000000, 0x00000005])))) =
      [([(3, 5, 7, 19500000), (0, 0, 1, 20000000)], 10000000, 20000000, 8)] := by decide

/-- C17: the bytes of P1 read in big-endian order. -/
theorem test_convert_big_endian :
    outputs (exec .convert (block (withFrame [0x00000000, 0x00000064, 0x000000C8, 0x00000007, 0x00000003, 0x00000001,
        0x00070143, 0x00000000, 0x000A0FFF]) { Params.reference with byteOrder := .big } 0x00)) =
      [.diag ⟨.debug, 0x02, .notSynced⟩, .response (.skip (.notSynced 0x07000000))] := by decide

/-- 2.2. -/
theorem test_recValue :
    outputs (exec .recValue (block (withRecord (.tot ⟨3, 5⟩ 7)))) = [.response (.ok (.magnitude 7))] := by decide

/-- 2.2. -/
theorem test_recMode :
    outputs (exec .recMode (block (withRecord (.toa ⟨63, 15⟩ 1 0)))) = [.response (.ok (.mode 0x01))] := by decide

/-- 2.2. -/
theorem test_recArrival :
    outputs (exec .recArrival (block (withRecord (.toa ⟨3, 5⟩ 7 50)))) = [.response (.ok (.arrival 50))] := by decide

/-- 2.2: no sentinel. -/
theorem test_recArrival_tot :
    outputs (exec .recArrival (block (withRecord (.tot ⟨3, 5⟩ 7)))) =
      [.response (.error (.fieldAccess 0x00 .arrival))] := by decide

/-- 2.10. -/
theorem test_cfgPlaneId :
    (match exec .cfgPlaneId (block { idleOperands with v := 0xFFFFFFFF }) with
      | .next t => (t.planeId, t.acqMode)
      | _ => (0, 0)) = (0xFFFFFFFF, 0x01) := by decide

/-- 2.10. -/
theorem test_cfgAcqMode :
    (match exec (.cfgAcqMode 0xFF) (block idleOperands) with
      | .next t => (t.planeId, t.acqMode)
      | _ => (1, 0)) = (0, 0xFF) := by decide

/-- A step takes the word that `withFetchWord` placed (0x00000102, F9). -/
theorem test_step_runs_word :
    outputs (step ((block (withPayload [0x00070143])).withFetchWord 32 0x00000102)) =
      [.response (.error (.payloadLength 1 2 0x01))] := by decide

/-! ## Witnesses: the hypotheses of each obligation can be met -/

theorem test_witness_StepRunsTheDecodedInstruction :
    (pendingBlock (command 0x00000001)).pending = [command 0x00000001] ∧
      decodeWord (command 0x00000001).cmd = .ok .hdr := by decide

theorem test_witness_PlacedCommandRuns : decodeTableWord 32 0x0000FF11 = some (.cfgAcqMode 0xFF) := by decide

/-- One word for each way of being illegal: RSV 1, OPC 0x0B beside MODE 0, MODE 1 on HDR. -/
theorem test_witness_IllegalCommandsAreRejected :
    (∀ w : Word, (pendingBlock (command w)).pending = [command w]) ∧
    (0x00010001 : Word).toNat / 2 ^ 16 ≠ 0 ∧
    (0x0000000B : Word).toNat % 2 ^ 8 ∉ [0x01, 0x02, 0x03, 0x04, 0x05, 0x06, 0x07, 0x08, 0x09, 0x0A, 0x10, 0x11] ∧
    (0x00000101 : Word).toNat % 2 ^ 8 ∉ [0x02, 0x05, 0x11] ∧ (0x00000101 : Word).toNat / 2 ^ 8 % 2 ^ 8 ≠ 0 :=
  ⟨fun _ => rfl, by decide⟩

/-- FRAME with the first unsupported mode, TS_HIT with the last. -/
theorem test_witness_UnsupportedCommandModesAreRejected :
    (∀ w : Word, (pendingBlock (command w)).pending = [command w]) ∧
    [0x00000202, 0x0000FF05].all (fun w : Word => decide (w.toNat / 2 ^ 16 = 0 ∧ w.toNat % 2 ^ 8 ∈ [0x02, 0x05] ∧
      2 ≤ w.toNat / 2 ^ 8 % 2 ^ 8)) = true :=
  ⟨fun _ => rfl, by decide⟩

/-- The first and the last unsupported mode. -/
theorem test_witness_AssemblyLinesDecode : 2 ≤ (0x02 : ModeByte).toNat ∧ 2 ≤ (0xFF : ModeByte).toNat := by decide

/-- One request is pending, and the step that takes it answers. -/
theorem test_witness_RequestsArriveBehindThosePending :
    let s := pendingBlock (command 0x00000003)
    s.pending ≠ [] ∧ (∃ t, step s = .next t) ∧ ∃ t, runSteps s.pending.length s = .next t :=
  ⟨by decide, ⟨_, rfl⟩, _, rfl⟩

theorem test_witness_EmptyQueueWaits : State.reset.pending = [] := rfl

theorem test_witness_OneResponsePerRequest :
    (pendingBlock (command 0x00000004)).pending = [command 0x00000004] ∧
      ∃ t, step (pendingBlock (command 0x00000004)) = .next t := ⟨rfl, _, rfl⟩

/-- Five words, and six. -/
theorem test_witness_HdrDecodesTheHeader :
    (block (withWords [0, 0, 0, 0, 0])).port.words.length < 6 ∧ 6 ≤ (block (withWords frameA)).port.words.length := by
  decide

/-- The largest header of the reference layout. -/
theorem test_witness_HeaderRoundTrips :
    let h : FrameHeader := ⟨2 ^ 32 - 1, 2 ^ 32 - 1, 2 ^ 32 - 1, 2 ^ 32 - 1, 2 ^ 32 - 1, true⟩
    let s := block (withWords (HdrLayout.reference.encode h))
    s.params.hdr.lawful = true ∧ h.fits s.params = true ∧ s.port.words = s.params.hdr.encode h := by decide

theorem test_witness_DecodedHeaderFitsItsWidths : Params.reference.hdr.lawful = true := by decide

/-- Words that differ exactly in unassigned bits: bits 31:1 of header word 5, and bits 15:10 of the unit. -/
theorem test_witness_UnassignedBitsAreIgnored :
    Params.reference.lawful = true ∧
    (∀ c ∈ Params.reference.hdr.slices, ∀ b, c.lo ≤ b → b ≤ c.hi →
      (([0, 0, 0, 0, 0, 0x00000001] : List Word).getD c.word 0).getLsbD b =
        (([0, 0, 0, 0, 0, 0xFFFFFFFF] : List Word).getD c.word 0).getLsbD b) ∧
    (∀ c ∈ Params.reference.unitSlices .totOnly, ∀ b, c.lo ≤ b → b ≤ c.hi →
      (([0x000A03FF] : List Word).getD c.word 0).getLsbD b =
        (([0x000AFFFF] : List Word).getD c.word 0).getLsbD b) ∧
    (∀ c ∈ Params.reference.hdr.slices, ¬(c.word = 5 ∧ c.lo ≤ 1 ∧ 1 ≤ c.hi)) ∧
    (∀ c ∈ Params.reference.unitSlices .totToa, ¬(c.word = 0 ∧ c.lo ≤ 10 ∧ 10 ≤ c.hi)) := by
  have key : ∀ (cs : List Slice) (ws vs : List Word),
      (cs.all fun c => (List.range 32).all fun b => !(decide (c.lo ≤ b) && decide (b ≤ c.hi)) ||
        (ws.getD c.word 0).getLsbD b == (vs.getD c.word 0).getLsbD b) = true →
      (cs.all fun c => decide (c.hi ≤ 31)) = true →
      ∀ c ∈ cs, ∀ b, c.lo ≤ b → b ≤ c.hi → (ws.getD c.word 0).getLsbD b = (vs.getD c.word 0).getLsbD b := by
    intro cs ws vs h h' c hc b h1 h2
    have h3 := of_decide_eq_true (List.all_eq_true.1 h' c hc)
    have h4 := List.all_eq_true.1 (List.all_eq_true.1 h c hc) b (List.mem_range.2 (by omega))
    simpa [h1, h2] using h4
  exact ⟨by decide, key _ _ _ (by decide) (by decide), key _ _ _ (by decide) (by decide), by decide, by decide⟩

theorem test_witness_BytesAssembleInByteOrder :
    ([0x43, 0x01, 0x07, 0x00] : List Byte).length % 4 = 0 ∧ 0 < ([0x43, 0x01, 0x07, 0x00] : List Byte).length / 4 := by
  decide

/-- Parameters whose ToT unit has two words and whose column map has 7 bits, so that column 64 is encodable. -/
def wideParams : Params :=
  { Params.reference with
    unitWordsTot := 2
    unitTot := ⟨.explicit (oneSlice 0 6 0) (oneSlice 0 10 7), oneSlice 0 31 16⟩
    unitToa := ⟨.explicit (oneSlice 0 6 0) (oneSlice 0 10 7), oneSlice 0 31 16⟩ }

/-- A leftover word; a valid unit, then column 64 in the second; and column 63. -/
theorem test_witness_FrameTotUnpacks :
    let bad := withPayload [0, 0, 64, 0]
    let addr (o : Operands) (k : Nat) : PixelAddress := wideParams.unitTot.addr.address k ((o.payload.drop (k * 2)).take 2)
    wideParams.lawful = true ∧ 1 % wideParams.unitWordsTot ≠ 0 ∧
    (bad.payload.length % 2 = 0 ∧ 1 < bad.payload.length / 2 ∧
      (∀ j, j < 1 → (addr bad j).col < 64 ∧ (addr bad j).row < 16) ∧ ¬((addr bad 1).col < 64 ∧ (addr bad 1).row < 16)) ∧
    (∀ j, j < 1 → (addr (withPayload [63, 0]) j).col < 64 ∧ (addr (withPayload [63, 0]) j).row < 16) := by decide

theorem test_witness_FrameToaUnpacks :
    let bad := withPayload [0, 0, 64, 0]
    let addr (o : Operands) (k : Nat) : PixelAddress := wideParams.unitToa.addr.address k ((o.payload.drop (k * 2)).take 2)
    1 % wideParams.unitWordsToa ≠ 0 ∧
    (bad.payload.length % 2 = 0 ∧ 1 < bad.payload.length / 2 ∧
      (∀ j, j < 1 → (addr bad j).col < 64 ∧ (addr bad j).row < 16) ∧ ¬((addr bad 1).col < 64 ∧ (addr bad 1).row < 16)) ∧
    (∀ j, j < 1 → (addr (withPayload [63, 0]) j).col < 64 ∧ (addr (withPayload [63, 0]) j).row < 16) := by decide

theorem test_witness_ReferenceUnitsNeverOutOfRange :
    let s := block (withPayload [0xFFFFFFFF, 0xFFFFFFFF])
    s.params.unitTot = UnitLayout.reference ∧ s.params.unitToa = UnitLayout.reference ∧ s.params.unitWordsTot = 1 ∧
      s.params.unitWordsToa = 2 ∧ s.port.payload.length % 2 = 0 := ⟨rfl, rfl, rfl, rfl, rfl⟩

/-- The last unit under positional addressing, and the first out of range. -/
theorem test_witness_PositionalAddressesCoverTheMatrix :
    (AddrSource.positional .colFastest).address 1023 [] = ⟨63, 15⟩ ∧
      (AddrSource.positional .rowFastest).address 1024 [] = ⟨64, 0⟩ := by decide

/-- The last pixel with the largest values. -/
theorem test_witness_FrameRoundTrips :
    let px : List (PixelAddress × Nat × Nat) := [(⟨63, 15⟩, 65535, 2 ^ 32 - 1)]
    let p := Params.reference
    p.lawful = true ∧ p.unitTot.addr = .explicit (oneSlice 0 5 0) (oneSlice 0 9 6) ∧
      p.unitToa.addr = .explicit (oneSlice 0 5 0) (oneSlice 0 9 6) ∧
      (∀ x ∈ px, PixelRecord.fits p (.tot x.1 x.2.1) = true ∧ PixelRecord.fits p (.toa x.1 x.2.1 x.2.2) = true ∧
        x.1.col < 2 ^ (oneSlice 0 5 0).width ∧ x.1.row < 2 ^ (oneSlice 0 9 6).width) ∧
      (block (withPayload [0xFFFF03FF])).port.payload = px.flatMap (fun x => p.encodeUnit .totOnly x.1 x.2.1 x.2.2) ∧
      (block (withPayload [0xFFFF03FF, 0xFFFFFFFF])).port.payload =
        px.flatMap (fun x => p.encodeUnit .totToa x.1 x.2.1 x.2.2) := by decide

/-- Each clause at the first tick out of range or the last in range (2.6). -/
theorem test_witness_TsFrameConvertsTicks :
    Params.reference.tsOverflow = .fault ∧ 2 ^ 64 ≤ 1844674407370956 * 10000 ∧ 1844674407370955 * 10000 < 2 ^ 64 := by
  decide

theorem test_witness_NarrowCountersNeverOverflow :
    let s := block (withHeader ⟨0, 2 ^ 32 - 1, 2 ^ 32 - 1, 0, 0, true⟩)
    s.port.h.fits s.params = true ∧ s.params.hdr.opening.width ≤ 50 ∧ s.params.hdr.closing.width ≤ 50 := by decide

theorem test_witness_FrameTimesHaveExactMidpoint :
    let s := block { idleOperands with startPs := 1000000, endPs := 2000000 }
    s.params.tsOverflow = .fault ∧ s.port.startPs.toNat = 100 * 10000 ∧ s.port.endPs.toNat = 200 * 10000 := by decide

/-- The first arrival past the frame end, and the last within it (2.8). -/
theorem test_witness_TsHitToaSubtractsTheArrival :
    let s := block { idleOperands with endPs := 2000000, arrival := 201 }
    let s' := block { idleOperands with endPs := 2000000, arrival := 200 }
    (s.params.tsOverflow = .fault ∧ s.port.endPs.toNat < s.port.arrival * 10000) ∧
      s'.port.arrival * 10000 ≤ s'.port.endPs.toNat := by decide

theorem test_witness_ToaTimesStrictlyDecrease :
    let s := block { idleOperands with endPs := 2000000, arrival := 100 }
    let s' := block { idleOperands with endPs := 2000000, arrival := 200 }
    s.params.tsOverflow = .fault ∧ s.port.endPs = s'.port.endPs ∧ s.port.arrival < s'.port.arrival ∧
    (∃ t, exec .tsHitToa s = .next t ∧ t.out = s.out ++ [.response (.ok (.timestamp 1000000))]) ∧
    ∃ t, exec .tsHitToa s' = .next t ∧ t.out = s'.out ++ [.response (.ok (.timestamp 0))] :=
  ⟨rfl, rfl, by decide, ⟨_, rfl, by decide⟩, ⟨_, rfl, by decide⟩⟩

/-- Each register changes under its writer, and an operation other than CONVERT answers. -/
theorem test_witness_OnlyCfgWritesAndConvertReads :
    (∃ t, exec .cfgPlaneId (block { idleOperands with v := 1 }) = .next t ∧ t.planeId ≠ State.reset.planeId) ∧
    (∃ t, exec (.cfgAcqMode 0x00) (block idleOperands) = .next t ∧ t.acqMode ≠ (block idleOperands).acqMode) ∧
    ∃ t, exec .recMode (block idleOperands) = .next t :=
  ⟨⟨_, rfl, by decide⟩, ⟨_, rfl, by decide⟩, _, rfl⟩

/-- No block and two blocks; one byte over; one word short (C1 to C4). -/
theorem test_witness_ConvertSkipsMalformedEvents :
    (block (withBlocks [])).port.ev.blocks.length ≠ 1 ∧ (block (withBlocks [[], []])).port.ev.blocks.length ≠ 1 ∧
    ((List.replicate 25 (0 : Byte)).length % 4 ≠ 0) ∧
    ((List.replicate 20 (0 : Byte)).length % 4 = 0 ∧ (List.replicate 20 (0 : Byte)).length < 24) := by decide

/-- A block of exactly 24 bytes with T0 clear, and one with open 201 and close 200. -/
theorem test_witness_ConvertSkipsRejectedFrames :
    let b := blockOfWords .little [0, 100, 200, 1, 0, 0]
    let b' := blockOfWords .little [0, 201, 200, 1, 0, 1]
    (b.length % 4 = 0 ∧ 24 ≤ b.length ∧
      (HdrLayout.reference.decode ((assemble .little b).take 6)).t0Flag = false) ∧
    (b'.length % 4 = 0 ∧ 24 ≤ b'.length ∧ HdrLayout.reference.decode ((assemble .little b').take 6) =
      ⟨0, 201, 200, 1, 0, true⟩) := by decide

/-- S2 (C9), with a second unit of magnitude 0. -/
theorem test_witness_ConvertConvertsTotFrames :
    let b := blockOfWords .little (frameA ++ [0x00070143, 0x00000000])
    let s := block (withBlocks [b]) Params.reference 0x00
    let payload := (assemble .little b).drop 6
    s.port.ev.blocks = [b] ∧ b.length % 4 = 0 ∧ 24 ≤ b.length ∧
      HdrLayout.reference.decode ((assemble .little b).take 6) = headerA ∧ s.acqMode = 0x00 ∧ payload.length % 1 = 0 ∧
      (∀ j, j < 2 → (UnitLayout.reference.addr.address j ((payload.drop j).take 1)).col < 64 ∧
        (UnitLayout.reference.addr.address j ((payload.drop j).take 1)).row < 16) ∧ 200 * 10000 < 2 ^ 64 := by decide

/-- C10 and C12: arrival 200, at the frame end, and a unit of magnitude 0 with a later arrival. -/
theorem test_witness_ConvertConvertsToaFrames :
    let b := blockOfWords .little (frameA ++ [0x00070143, 0x000000C8, 0x00000143, 0x000000C9])
    let s := block (withBlocks [b])
    let payload := (assemble .little b).drop 6
    let unit (k : Nat) : List Word := (payload.drop (k * 2)).take 2
    s.port.ev.blocks = [b] ∧ b.length % 4 = 0 ∧ 24 ≤ b.length ∧
      HdrLayout.reference.decode ((assemble .little b).take 6) = headerA ∧ s.acqMode = 0x01 ∧ payload.length % 2 = 0 ∧
      (∀ j, j < 2 → (UnitLayout.reference.addr.address j (unit j)).col < 64 ∧
        (UnitLayout.reference.addr.address j (unit j)).row < 16) ∧
      (∀ j, j < 2 → UnitLayout.reference.tot.value (unit j) ≠ 0 →
        Params.reference.arrivalMap.value (unit j) ≤ 200) := by decide

/-- C15, C13, C8, and a leftover word under two-word ToT units. -/
theorem test_witness_ConvertReportsErrorsInOrder :
    let b := blockOfWords .little (frameA ++ [0x00070143])
    b.length % 4 = 0 ∧ 24 ≤ b.length ∧ HdrLayout.reference.decode ((assemble .little b).take 6) = headerA ∧
      ((assemble .little b).drop 6).length = 1 ∧ headerA.length ≠ 1 ∧
      2 ≤ (block (withBlocks [b]) Params.reference 0x02).acqMode.toNat ∧ 1 % wideParams.unitWordsTot ≠ 0 ∧
      1 % Params.reference.unitWordsToa ≠ 0 := by decide

/-- P5: each operation of the caller flow answers OK, on one state. -/
theorem test_witness_ConvertIsTheCallerFlow :
    let b := blockOfWords .little (frameA ++ [0x00070143, 0x00000032, 0x00000000, 0x00000009])
    let s := block idleOperands
    let answers (i : Instr) (ops : Operands) (r : Result) : Prop :=
      ∃ t : State, exec i { s with port := ops } = .next t ∧ t.out = s.out ++ [.response (.ok r)]
    let recs : List PixelRecord := [.toa ⟨3, 5⟩ 7 50, .toa ⟨0, 0⟩ 0 9]
    s.acqMode = AcqMode.totToa.byte ∧ b.length % 4 = 0 ∧ s.params.lengthCheck = .ignore ∧
    answers .hdr { s.port with words := assemble s.params.byteOrder b } (.header headerA) ∧
    answers .accept { s.port with h := headerA } (.verdict .accepted) ∧
    answers .frameToa { s.port with payload := (assemble s.params.byteOrder b).drop 6 } (.records recs) ∧
    answers .filter { s.port with recs := recs } (.records [.toa ⟨3, 5⟩ 7 50]) ∧
    answers .tsFrame { s.port with h := headerA } (.frameTimes 1000000 2000000) ∧
    answers .tsHitToa { s.port with endPs := 2000000, arrival := 50 } (.timestamp 1500000) :=
  ⟨rfl, by decide, rfl, ⟨_, rfl, by decide⟩, ⟨_, rfl, by decide⟩, ⟨_, rfl, by decide⟩, ⟨_, rfl, by decide⟩,
    ⟨_, rfl, by decide⟩, _, rfl, by decide⟩

/-- A layout whose shutter-close field is 64 bits wide, over words 2 and 3, so that TS_FRAME can leave range. -/
def deepParams : Params :=
  { Params.reference with
    hdr := { HdrLayout.reference with
      closing := [⟨2, 31, 0⟩, ⟨3, 31, 0⟩]
      fid := oneSlice 4 31 16
      len := oneSlice 4 15 0 } }

/-- How the operation ends on these operands, in a block at reset with these parameters. -/
def endsIn (p : Params) (i : Instr) (ops : Operands) (r : Response) : Prop :=
  ∃ t : State, exec i { block idleOperands p with port := ops } = .next t ∧ t.out = [] ++ [.response r]

/-- The flow of an accepted frame up to its payload: the words of one block, and the header they hold. -/
def acceptedFlow (p : Params) (ws : List Word) (h : FrameHeader) : Prop :=
  p.lawful = true ∧ p.lengthCheck = .ignore ∧ (block idleOperands p).acqMode = AcqMode.totToa.byte ∧
    (blockOfWords p.byteOrder ws).length % 4 = 0 ∧ assemble p.byteOrder (blockOfWords p.byteOrder ws) = ws ∧
    endsIn p .hdr (withWords ws) (.ok (.header h)) ∧ endsIn p .accept (withHeader h) (.ok (.verdict .accepted))

/-- The three ways the flow of an accepted frame stops, each on one event: FRAME on a leftover word (C8), TS_FRAME on the
first tick out of range, and TS_HIT on an arrival past the frame end (C11). -/
theorem test_witness_ConvertStopsWhereTheCallerFlowStops :
    let p := Params.reference
    let odd := frameA ++ [0x00070143]
    let deep : List Word := [0, 0, 0x00068DB8, 0xBAC710CC, 0x00010000, 1]
    let h : FrameHeader := ⟨0, 0, 1844674407370956, 1, 0, true⟩
    let late := frameA ++ [0x00010143, 0x000000C9]
    let recs : List PixelRecord := [.toa ⟨3, 5⟩ 1 201]
    (acceptedFlow p odd headerA ∧
      endsIn p .frameToa (withPayload (odd.drop 6)) (.error (.payloadLength 1 2 0x01))) ∧
    (acceptedFlow deepParams deep h ∧ endsIn deepParams .frameToa (withPayload (deep.drop 6)) (.ok (.records [])) ∧
      endsIn deepParams .tsFrame (withHeader h) (.error (.timestampRangeTick 1844674407370956))) ∧
    (acceptedFlow p late headerA ∧ endsIn p .frameToa (withPayload (late.drop 6)) (.ok (.records recs)) ∧
      endsIn p .filter (withRecords recs) (.ok (.records ([] ++ .toa ⟨3, 5⟩ 1 201 :: []))) ∧
      endsIn p .tsFrame (withHeader headerA) (.ok (.frameTimes 1000000 2000000)) ∧
      endsIn p .tsHitToa { idleOperands with endPs := 2000000, arrival := 201 }
        (.error (.timestampRangeHit 2000000 201))) :=
  ⟨⟨⟨by decide, rfl, rfl, by decide, by decide, ⟨_, rfl, by decide⟩, _, rfl, by decide⟩, _, rfl, by decide⟩,
    ⟨⟨by decide, rfl, rfl, by decide, by decide, ⟨_, rfl, by decide⟩, _, rfl, by decide⟩,
      ⟨_, rfl, by decide⟩, _, rfl, by decide⟩,
    ⟨⟨by decide, rfl, rfl, by decide, by decide, ⟨_, rfl, by decide⟩, _, rfl, by decide⟩,
      ⟨_, rfl, by decide⟩, ⟨_, rfl, by decide⟩, ⟨_, rfl, by decide⟩, _, rfl, by decide⟩⟩

/-- Does an operation emit an event first? -/
def emits (e : Effect) : Bool :=
  match outputs e with
  | .event _ :: _ => true
  | _ => false

theorem emits_spec {s : State} {i : Instr} (h : emits (exec i s) = true) :
    ∃ t ev tail, exec i s = .next t ∧ t.out = .event ev :: tail := by
  unfold emits outputs at h
  split at h
  · rename_i ev tail ho
    split at ho
    · rename_i t ht
      exact ⟨t, ev, tail, ht, ho⟩
    · cases ho
    · cases ho
  · cases h

/-- In mode 0x00 (C9) and in mode 0x01 (C10). -/
theorem test_witness_EmittedEventsKeepTheRules :
    (∃ t ev tail, exec .convert (block (withFrame (frameA ++ [0x00070143])) Params.reference 0x00) = .next t ∧
      t.out = .event ev :: tail) ∧
    ∃ t ev tail, exec .convert (block (withFrame (frameA ++ [0x00070143, 0x00000032]))) = .next t ∧
      t.out = .event ev :: tail :=
  ⟨emits_spec (by decide), emits_spec (by decide)⟩

/-- In ToT+ToA mode: the last pixel, its arrival at the frame end, and a pixel of magnitude 0 with a later one. In
ToT-only mode: positional addresses, big-endian blocks and `require_equal`. -/
theorem test_witness_EncodedFramesConvertToTheirPixels :
    let px : List (PixelAddress × Nat × Nat) := [(⟨63, 15⟩, 65535, 200), (⟨3, 5⟩, 0, 201)]
    let px' : List (PixelAddress × Nat × Nat) := [(⟨0, 0⟩, 1, 0), (⟨0, 1⟩, 65535, 0)]
    let p := Params.reference
    let p' := { Params.reference with
      unitTot := ⟨.positional .rowFastest, oneSlice 0 31 16⟩
      byteOrder := .big
      lengthCheck := .requireEqual }
    let h' := { headerA with length := 2 }
    (p.lawful = true ∧ p.tsOverflow = .fault ∧ p.lengthCheck = .ignore ∧ headerA.fits p = true ∧
      headerA.t0Flag = true ∧ headerA.shutterOpen ≤ headerA.shutterClose ∧ headerA.shutterClose * 10000 < 2 ^ 64 ∧
      (∀ k x, px[k]? = some x → (AcqMode.totToa.record x.1 x.2.1 x.2.2).fits p = true ∧
        (p.unitLayout .totToa).addr.stores k x.1 = true ∧ (x.2.1 ≠ 0 → x.2.2 ≤ headerA.shutterClose)) ∧
      p.hdr.encode headerA ++ px.flatMap (fun x => p.encodeUnit .totToa x.1 x.2.1 x.2.2) =
        frameA ++ [0xFFFF03FF, 200, 0x00000143, 201]) ∧
    (p'.lawful = true ∧ p'.tsOverflow = .fault ∧ h'.length = px'.length * p'.unitWords .totOnly ∧ h'.fits p' = true ∧
      h'.t0Flag = true ∧
      (∀ k x, px'[k]? = some x → (AcqMode.totOnly.record x.1 x.2.1 x.2.2).fits p' = true ∧
        (p'.unitLayout .totOnly).addr.stores k x.1 = true)) := by
  intro px px' p p' h'
  refine ⟨⟨by decide, rfl, rfl, by decide, rfl, by decide, by decide, fun k x hk => ?_, by decide⟩,
    by decide, rfl, by decide, by decide, rfl, fun k x hk => ?_⟩
  all_goals
    rcases k with _ | _ | k
    · cases hk; decide
    · cases hk; decide
    · cases hk

/-- A hard error, and a skip. -/
theorem test_witness_FailedOperationsLeaveNothing :
    (∃ t, exec .recArrival (block (withRecord (.tot ⟨3, 5⟩ 7))) = .next t ∧
      t.out = [] ++ [] ++ [.response (.error (.fieldAccess 0x00 .arrival))]) ∧
    (∃ t, exec .convert (block (withBlocks [])) = .next t ∧ t.out = [] ++
      [.diag ⟨.warning, 0x01, .malformed .blockCount⟩] ++ [.response (.skip (.malformed .blockCount 0))]) ∧
    (Response.error (.fieldAccess 0x00 .arrival)).outcomeClass ≠ .ok ∧
    (Response.skip (.malformed .blockCount 0)).outcomeClass ≠ .ok :=
  ⟨⟨_, rfl, by decide⟩, ⟨_, rfl, by decide⟩, by decide, by decide⟩

/-- Two blocks with different latches, outputs and later requests. -/
theorem test_witness_EqualRequestsGiveEqualOutputs :
    let s := pendingBlock (command 0x00000006)
    let s' := { s with
      pending := [command 0x00000006, command 0x00000007]
      latches := { idleLatches with cursor := 9 }
      out := [.response (.ok .noValue)]
      undefIndex := 4 }
    s.params = s'.params ∧ s.planeId = s'.planeId ∧ s.acqMode = s'.acqMode ∧ s.pending = [command 0x00000006] ∧
      s'.pending = [command 0x00000006, command 0x00000007] ∧ (∃ t, step s = .next t) ∧ ∃ t, step s' = .next t :=
  ⟨rfl, rfl, rfl, rfl, rfl, ⟨_, rfl⟩, _, rfl⟩

/-- CFG_PLANE_ID answers, and the CONVERT after it emits an event. -/
theorem test_witness_CfgPlaneIdWritesRegister :
    let s := block { idleOperands with v := 2 }
    exec .cfgPlaneId s = .next { s with planeId := 2, out := [.response (.ok .noValue)] } ∧
    ∃ t ev tail, exec .convert { s with planeId := 2, out := [], port := withFrame frameA } = .next t ∧
      t.out = .event ev :: tail :=
  ⟨rfl, emits_spec (by decide)⟩

/-- CFG_ACQ_MODE answers, and so does the CONVERT after it: of an accepted frame under the last unsupported mode, and,
with an event, under 0x01. -/
theorem test_witness_CfgAcqModeWritesRegister :
    let s := block idleOperands
    let t (v : ModeByte) := { s with acqMode := v, out := [.response (.ok .noValue)] }
    let b := blockOfWords .little frameA
    (∀ v, exec (.cfgAcqMode v) s = .next (t v)) ∧
    ((∃ u, exec .convert { t 0xFF with port := withBlocks [b] } = .next u) ∧ b.length % 4 = 0 ∧ 24 ≤ b.length ∧
      HdrLayout.reference.decode ((assemble .little b).take 6) = headerA ∧ 2 ≤ (0xFF : ModeByte).toNat) ∧
    ∃ u ev tail, exec .convert { s with acqMode := 0x01, port := withFrame (frameA ++ [0x00070143, 50, 0, 9]) } =
      .next u ∧ u.out = .event ev :: tail :=
  ⟨fun _ => rfl, ⟨⟨_, rfl⟩, by decide, by decide, by decide, by decide⟩, emits_spec (by decide)⟩

/-- A skip, a hard error and an OK outcome. -/
theorem test_witness_DiagnosticRecordsReportSkips :
    (∃ t, exec .convert (block (withBlocks [])) = .next t) ∧
    (∃ t, exec .recArrival (block (withRecord (.tot ⟨3, 5⟩ 7))) = .next t) ∧
    ∃ t, exec .recMode (block idleOperands) = .next t :=
  ⟨⟨_, rfl⟩, ⟨_, rfl⟩, _, rfl⟩

theorem test_witness_StepKeepsTheInvariant :
    (pendingBlock (command 0x00000007)).invariant = true ∧ ∃ t, step (pendingBlock (command 0x00000007)) = .next t :=
  ⟨by decide, _, rfl⟩

theorem test_witness_ResetMeetsTheInvariant : wideParams.lawful = true := by decide

/-- A step that answers a hard error, and one that does not. -/
theorem test_witness_StrictStepFaultsOnHardErrors :
    (∃ t, step (pendingBlock (command 0x00000000)) = .next t ∧
      t.out = [.response (.error (.illegalCommand 0x00000000))]) ∧
    (pendingBlock (command 0x00000003)).noHardError = true ∧
    ∃ t, strictStep (pendingBlock (command 0x00000003)) = .next t :=
  ⟨⟨_, rfl, by decide⟩, by decide, _, rfl⟩

/-- A system of two blocks: a move on the second leaves the first. -/
theorem test_witness_MovesTouchOnlyTheirInstance :
    let sys : System := ⟨[State.reset, State.reset]⟩
    (∃ sys', sys.move (.issue 1 (command 0x00000001)) = .next sys') ∧ 0 < sys.instances.length ∧
      (Move.issue 1 (command 0x00000001)).target ≠ some 0 :=
  ⟨⟨_, rfl⟩, by decide, by decide⟩

theorem test_witness_InstancesDoNotInteract :
    (Move.reset 0).target = some 0 ∧ (Move.run 1).target = some 1 ∧ (0 : Nat) ≠ 1 := by decide

/-- Two instances with one and two requests, and turns that give each as many. -/
theorem test_witness_SystemRunsEndWithEveryResponse :
    let r := command 0x00000003
    let s := pendingBlock r
    let sys : System := ⟨[s, s.issue r]⟩
    (∀ (n : Nat) (s : State), sys.instances[n]? = some s → s.pending.length ≤ [1, 0, 1].count n) ∧
      System.empty.moves [.construct Params.reference, .construct Params.reference, .issue 1 r, .issue 0 r, .issue 1 r] =
        .next sys ∧
      sys.instances ≠ [] ∧ ∀ s ∈ sys.instances, s.unanswered = [] := by
  intro r s sys
  refine ⟨fun n s hn => ?_, rfl, by simp [sys], fun s hs => ?_⟩
  · rcases n with _ | _ | n
    · cases hn; decide
    · cases hn; decide
    · cases hn
  · rcases List.mem_cons.1 hs with rfl | hs
    · rfl
    · rw [List.mem_singleton.1 hs]; rfl

theorem test_witness_InterleavingIsNotObserved :
    let ms : List Move := [.issue 0 (command 0x00000003), .run 1, .run 0]
    let ms' : List Move := [.run 1, .issue 0 (command 0x00000003), .run 0]
    (∀ m ∈ ms ++ ms', m.target ≠ none) ∧
      ∀ n, ms.filter (fun m => m.target == some n) = ms'.filter fun m => m.target == some n := by
  refine ⟨by decide, fun n => ?_⟩
  rcases n with _ | _ | n <;> rfl

/-- A run in which a live reset dropped a request has not ended, and has no observation (R179). -/
theorem test_dropped_request :
    (pendingBlock (command 0x00000001)).ended = false ∧
      (pendingBlock (command 0x00000001)).applyReset.ended = false ∧ State.reset.applyReset.ended = true ∧
      runObservation [.construct Params.reference, .issue 0 (command 0x00000001), .reset 0, .run 0] = none ∧
      runObservation [] = none ∧ runObservation [.construct Params.reference] = some [⟨[], [], []⟩] := by decide

end Sys2Proof.Tests
end

-- ==== State after reset (10_state.md) ====
section
namespace Sys2Proof.Proofs
open Sys2Proof.Machine

/-- R37's values, for a block constructed with any parameters. -/
theorem construct_leaves_defaults (p : Params) :
    (State.construct p).params = p ∧ (State.construct p).planeId = 0 ∧
      (State.construct p).acqMode = 0x01 ∧ (State.construct p).pending = [] ∧ (State.construct p).out = [] :=
  ⟨State.construct_params p, State.construct_planeId p, State.construct_acqMode p,
    State.construct_pending p, State.construct_out p⟩

/-- Settles O49: reset is the construction with the reference parameters, so it is an instance of the general case. -/
theorem resetLeavesDefaults : Obligations.ResetLeavesDefaults := by
  unfold Obligations.ResetLeavesDefaults
  obtain ⟨-, hplane, hmode, hpending, hout⟩ := construct_leaves_defaults Params.reference
  exact ⟨hplane, hmode, hpending, hout, construct_leaves_defaults⟩

end Sys2Proof.Proofs
end

-- ==== Byte blocks and malformed events (20_memory.md) ====
section
namespace Sys2Proof.Proofs
open Sys2Proof.Machine

/-! ### Byte blocks -/

theorem assembleWord_little_toNat (b0 b1 b2 b3 : Byte) :
    (assembleWord .little b0 b1 b2 b3).toNat =
      b3.toNat * 2 ^ 24 + b2.toNat * 2 ^ 16 + b1.toNat * 2 ^ 8 + b0.toNat := by
  rw [assembleWord, append_toNat, append_toNat, append_toNat]
  ring

/-- Big-endian assembly is little-endian assembly of the bytes in reverse order. -/
theorem assembleWord_big (b0 b1 b2 b3 : Byte) :
    assembleWord .big b0 b1 b2 b3 = assembleWord .little b3 b2 b1 b0 := rfl

/-- Word `i` of an assembled block is made of bytes `4i .. 4i+3` (R42). -/
theorem assemble_getD {order : ByteOrder} {bytes : List Byte} {i : Nat} (hi : i < (assemble order bytes).length) :
    (assemble order bytes).getD i 0 =
      assembleWord order (bytes.getD (4 * i) 0) (bytes.getD (4 * i + 1) 0) (bytes.getD (4 * i + 2) 0)
        (bytes.getD (4 * i + 3) 0) := by
  fun_induction assemble order bytes generalizing i with
  | case1 b0 b1 b2 b3 rest ih =>
    cases i with
    | zero => rfl
    | succ i => exact ih (by simpa using hi)
  | case2 bytes h => exact absurd hi (Nat.not_lt_zero i)

/-- Settles O16: the length is `assemble_length`, and each word is `assemble_getD` read in naturals. -/
theorem bytesAssembleInByteOrder : Obligations.BytesAssembleInByteOrder := by
  unfold Obligations.BytesAssembleInByteOrder
  intro bytes _ order
  refine ⟨assemble_length order bytes, fun i hi => ?_⟩
  rw [assemble_getD (by rwa [assemble_length])]
  cases order with
  | little => exact assembleWord_little_toNat ..
  | big => rw [assembleWord_big]; exact assembleWord_little_toNat ..

/-! ### Malformed events -/

section Malformed
variable {order : ByteOrder} {ev : InEvent} {bytes : List Byte}

theorem eventWords_blockCount (h : ev.blocks.length ≠ 1) :
    eventWords order ev = .error (.malformed .blockCount ev.blocks.length) := by
  unfold eventWords
  split
  next bytes hb => exact absurd (congrArg List.length hb) h
  next => rfl

theorem eventWords_byteLength (hb : ev.blocks = [bytes]) (h4 : bytes.length % 4 ≠ 0) :
    eventWords order ev = .error (.malformed .byteLength bytes.length) := by
  simp only [eventWords, hb]
  exact if_pos h4

/-- Fewer than 24 bytes of whole words are fewer than the six words of a header. -/
theorem eventWords_truncatedHeader (hb : ev.blocks = [bytes]) (h4 : bytes.length % 4 = 0)
    (h24 : bytes.length < 24) :
    eventWords order ev = .error (.malformed .truncatedHeader (bytes.length / 4)) := by
  have hwords : bytes.length / 4 < Config.headerWords := by
    rw [Config.headerWords]; omega
  simp only [eventWords, hb, assemble_length]
  rw [if_neg (not_not.2 h4), if_pos hwords]

end Malformed

/-- Settles O37: each fault of the event is the malformed reason of part 1, and CONVERT then only adds that skip's
record and response. -/
theorem convertSkipsMalformedEvents : Obligations.ConvertSkipsMalformedEvents := by
  unfold Obligations.ConvertSkipsMalformedEvents
  refine ⟨rfl, rfl, rfl, fun s => ⟨fun hcount => ?_, fun bytes hb h4 => ?_, fun bytes hb h4 h24 => ?_⟩⟩
  · exact execConvert_malformed (eventWords_blockCount hcount)
  · exact execConvert_malformed (eventWords_byteLength hb h4)
  · exact execConvert_malformed (eventWords_truncatedHeader hb h4 h24)

end Sys2Proof.Proofs
end

-- ==== Unassigned bits (30_encoding.md) ====
section
namespace Sys2Proof.Proofs
open Sys2Proof.Machine

/-- The two word lists agree on every bit of every slice. -/
def AgreeOn (cs : List Slice) (ws vs : List Word) : Prop :=
  ∀ c ∈ cs, ∀ b, c.lo ≤ b → b ≤ c.hi → (ws.getD c.word 0).getLsbD b = (vs.getD c.word 0).getLsbD b

/-- No slice names bit `b` of word `w`. -/
def Unassigned (cs : List Slice) (w b : Nat) : Prop :=
  ∀ c ∈ cs, ¬(c.word = w ∧ c.lo ≤ b ∧ b ≤ c.hi)

theorem agreeOn_append {cs ds : List Slice} {ws vs : List Word} :
    AgreeOn (cs ++ ds) ws vs ↔ AgreeOn cs ws vs ∧ AgreeOn ds ws vs :=
  List.forall_mem_append

theorem unassigned_append {cs ds : List Slice} {w b : Nat} :
    Unassigned (cs ++ ds) w b ↔ Unassigned cs w b ∧ Unassigned ds w b :=
  List.forall_mem_append

theorem unassigned_cons {c : Slice} {cs : List Slice} {w b : Nat} :
    Unassigned (c :: cs) w b ↔ ¬(c.word = w ∧ c.lo ≤ b ∧ b ≤ c.hi) ∧ Unassigned cs w b :=
  List.forall_mem_cons

/-! ### Decoding reads assigned bits only -/

section Decode
variable {ws vs : List Word}

theorem value_eq_of_agreeOn {fm : FieldMap} (h : AgreeOn fm ws vs) : fm.value ws = fm.value vs :=
  FieldMap.value_congr fm ws vs fun c hc => Slice.value_congr c ws vs (h c hc)

theorem address_eq_of_agreeOn {a : AddrSource} (k : Nat) (h : AgreeOn a.slices ws vs) :
    a.address k ws = a.address k vs := by
  cases a with
  | explicit colMap rowMap =>
    obtain ⟨hcol, hrow⟩ := agreeOn_append.1 h
    simp only [AddrSource.address, value_eq_of_agreeOn hcol, value_eq_of_agreeOn hrow]
  | positional order => cases order <;> rfl

theorem headerDecode_eq_of_agreeOn {L : HdrLayout} (h : AgreeOn L.slices ws vs) : L.decode ws = L.decode vs := by
  simp only [HdrLayout.slices, agreeOn_append] at h
  obtain ⟨⟨⟨⟨⟨htrig, hopen⟩, hclose⟩, hfid⟩, hlen⟩, ht0⟩ := h
  simp only [HdrLayout.decode, value_eq_of_agreeOn htrig, value_eq_of_agreeOn hopen, value_eq_of_agreeOn hclose,
    value_eq_of_agreeOn hfid, value_eq_of_agreeOn hlen, value_eq_of_agreeOn ht0]

/-- The arrival map is part of the slices, and is read, in mode 0x01 only. -/
theorem decodeUnit_eq_of_agreeOn {p : Params} {m : AcqMode} (k : Nat) (h : AgreeOn (p.unitSlices m) ws vs) :
    p.decodeUnit m k ws = p.decodeUnit m k vs := by
  simp only [Params.unitSlices, agreeOn_append] at h
  obtain ⟨⟨haddr, htot⟩, harrival⟩ := h
  have haddr := address_eq_of_agreeOn k haddr
  have htot := value_eq_of_agreeOn htot
  cases m with
  | totOnly => exact (PixelRecord.tot.injEq ..).mpr ⟨haddr, htot⟩
  | totToa => exact (PixelRecord.toa.injEq ..).mpr ⟨haddr, htot, value_eq_of_agreeOn harrival⟩

end Decode

/-! ### Encoding writes assigned bits only -/

section Encode
variable {w b : Nat}

theorem slicePlace_testBit_unassigned {c : Slice} (v : Nat) (h : ¬(c.word = w ∧ c.lo ≤ b ∧ b ≤ c.hi)) :
    (c.place v w).testBit b = false := by
  rw [Slice.place_testBit, Bool.eq_false_iff]
  simp only [ne_eq, Bool.and_eq_true, decide_eq_true_eq]
  rintro ⟨⟨⟨hword, hlo⟩, hwidth⟩, -⟩
  rw [Slice.width] at hwidth
  exact h ⟨hword, hlo, by omega⟩

theorem place_testBit_unassigned {fm : FieldMap} (v : Nat) (h : Unassigned fm w b) :
    (fm.place v w).testBit b = false := by
  induction fm with
  | nil => exact Nat.zero_testBit b
  | cons c rest ih =>
    obtain ⟨hc, hrest⟩ := unassigned_cons.1 h
    rw [FieldMap.place, Nat.testBit_or, slicePlace_testBit_unassigned _ hc, ih hrest, Bool.false_or]

theorem addressPlace_testBit_unassigned {a : AddrSource} (addr : PixelAddress) (h : Unassigned a.slices w b) :
    (a.place addr w).testBit b = false := by
  cases a with
  | explicit colMap rowMap =>
    obtain ⟨hcol, hrow⟩ := unassigned_append.1 h
    rw [AddrSource.place, Nat.testBit_or, place_testBit_unassigned _ hcol, place_testBit_unassigned _ hrow,
      Bool.false_or]
  | positional order => exact Nat.zero_testBit b

/-- A bit that is 0 in what is placed into word `w` is 0 in the encoded list, which reads 0 past its end. -/
theorem encodedWord_getLsbD_eq_false {n : Nat} {f : Nat → Nat} (h : (f w).testBit b = false) :
    (((List.range n).map fun i => BitVec.ofNat 32 (f i)).getD w 0).getLsbD b = false := by
  rw [List.getD_eq_getElem?_getD, List.getElem?_map]
  by_cases hw : w < n
  · rw [List.getElem?_range hw]
    simp [BitVec.getLsbD_ofNat, h]
  · rw [List.getElem?_eq_none (by simpa using hw)]
    simp

theorem headerEncode_unassigned {L : HdrLayout} (h : Unassigned L.slices w b) (hd : FrameHeader) :
    ((L.encode hd).getD w 0).getLsbD b = false := by
  simp only [HdrLayout.slices, unassigned_append] at h
  obtain ⟨⟨⟨⟨⟨htrig, hopen⟩, hclose⟩, hfid⟩, hlen⟩, ht0⟩ := h
  refine encodedWord_getLsbD_eq_false ?_
  simp only [Nat.testBit_or, place_testBit_unassigned _ htrig, place_testBit_unassigned _ hopen,
    place_testBit_unassigned _ hclose, place_testBit_unassigned _ hfid, place_testBit_unassigned _ hlen,
    place_testBit_unassigned _ ht0, Bool.or_self]

theorem encodeUnit_unassigned {p : Params} {m : AcqMode} (h : Unassigned (p.unitSlices m) w b)
    (addr : PixelAddress) (tot arrival : Nat) :
    ((p.encodeUnit m addr tot arrival).getD w 0).getLsbD b = false := by
  simp only [Params.unitSlices, unassigned_append] at h
  obtain ⟨⟨haddr, htot⟩, harrival⟩ := h
  refine encodedWord_getLsbD_eq_false ?_
  rw [Nat.testBit_or, Nat.testBit_or, addressPlace_testBit_unassigned _ haddr, place_testBit_unassigned _ htot,
    Bool.or_self, Bool.false_or]
  cases m with
  | totOnly => exact Nat.zero_testBit b
  | totToa => exact place_testBit_unassigned _ harrival

end Encode

/-- Settles O15: decoding depends on the assigned bits only, and encoding places nothing on the others. Neither rests
on the layout's laws. -/
theorem unassignedBitsAreIgnored : Obligations.UnassignedBitsAreIgnored := by
  unfold Obligations.UnassignedBitsAreIgnored
  intro p m k ws vs _
  exact ⟨headerDecode_eq_of_agreeOn, decodeUnit_eq_of_agreeOn k,
    fun _ _ => ⟨headerEncode_unassigned, encodeUnit_unassigned⟩⟩

end Sys2Proof.Proofs
end

-- ==== The record accessors (40_record_model.md) ====
section
namespace Sys2Proof.Proofs
open Sys2Proof.Machine

/-! ### What each accessor answers, by the fields of its record -/

section Accessors
variable {s : State} {addr : PixelAddress} {v a : Nat}

theorem exec_recValue :
    exec .recValue s = .next { s with out := s.out ++ [.response (.ok (.magnitude s.port.r.magnitude))] } :=
  complete_eq (.magnitude s.recordOperand.magnitude) s

theorem exec_recMode :
    exec .recMode s = .next { s with out := s.out ++ [.response (.ok (.mode s.port.r.acqMode.byte))] } :=
  complete_eq (.mode s.recordOperand.acqMode.byte) s

theorem exec_recArrival : exec .recArrival s = finish ((arrivalOf s.port.r).map .arrival) s := rfl

theorem arrivalOf_tot : arrivalOf (.tot addr v) = .error (.fieldAccess 0x00 .arrival) := rfl

theorem arrivalOf_toa : arrivalOf (.toa addr v a) = .ok a := rfl

theorem exec_recArrival_tot (hr : s.port.r = .tot addr v) :
    exec .recArrival s = .next { s with out := s.out ++ [.response (.error (.fieldAccess 0x00 .arrival))] } := by
  rw [exec_recArrival, hr, arrivalOf_tot]
  exact takeStop_eq (.hard (.fieldAccess 0x00 .arrival)) s

theorem exec_recArrival_toa (hr : s.port.r = .toa addr v a) :
    exec .recArrival s = .next { s with out := s.out ++ [.response (.ok (.arrival a))] } := by
  rw [exec_recArrival, hr, arrivalOf_toa]
  exact complete_eq (.arrival a) s

end Accessors

/-- Settles O31: both variants hold their magnitude as a field, and no value of it is singled out. -/
theorem recValueReturnsMagnitude : Obligations.RecValueReturnsMagnitude := by
  unfold Obligations.RecValueReturnsMagnitude
  refine ⟨rfl, fun s => ?_⟩
  rw [exec_recValue]
  cases s.port.r with
  | tot addr v => rfl
  | toa addr v a => rfl

/-- Settles O32: the variant is the mode tag. -/
theorem recModeReturnsTag : Obligations.RecModeReturnsTag := by
  unfold Obligations.RecModeReturnsTag
  refine ⟨rfl, fun s => ?_⟩
  rw [exec_recMode]
  cases s.port.r with
  | tot addr v => rfl
  | toa addr v a => rfl

/-- Settles O33: only a ToA record has the field, so the variant decides between the two ends of the operation. -/
theorem recArrivalReturnsCounter : Obligations.RecArrivalReturnsCounter := by
  unfold Obligations.RecArrivalReturnsCounter
  refine ⟨rfl, fun s => ?_⟩
  cases hr : s.port.r with
  | tot addr v => exact exec_recArrival_tot hr
  | toa addr v a => exact exec_recArrival_toa hr

end Sys2Proof.Proofs
end

-- ==== The timestamp validator (43_acceptance_timestamps.md) ====
section
namespace Sys2Proof.Proofs
open Sys2Proof.Machine

/-! ### What each operation of the validator answers, by the operands on the port -/

section Validator
variable {s : State} {t : Picos} {e : HardError}

theorem exec_accept :
    exec .accept s = .next { s with out := s.out ++ [.response (.ok (.verdict (acceptance s.port.h)))] } :=
  complete_eq (.verdict (acceptance s.headerOperand)) s

theorem exec_tsHitTot :
    exec .tsHitTot s = .next { s with
      out := s.out ++ [.response (.ok (.timestamp (midpoint s.params.tsOverflow s.port.startPs s.port.endPs)))] } :=
  complete_eq (.timestamp (midpoint s.params.tsOverflow s.startOperand s.endOperand)) s

theorem exec_tsHitToa :
    exec .tsHitToa s = finish ((hitFromEnd s.params.tsOverflow s.port.endPs s.port.arrival).map .timestamp) s := rfl

theorem exec_tsHitToa_ok (h : hitFromEnd s.params.tsOverflow s.port.endPs s.port.arrival = .ok t) :
    exec .tsHitToa s = .next { s with out := s.out ++ [.response (.ok (.timestamp t))] } := by
  rw [exec_tsHitToa, h]
  exact complete_eq (.timestamp t) s

theorem exec_tsHitToa_error (h : hitFromEnd s.params.tsOverflow s.port.endPs s.port.arrival = .error e) :
    exec .tsHitToa s = .next { s with out := s.out ++ [.response (.error e)] } := by
  rw [exec_tsHitToa, h]
  exact takeStop_eq (.hard e) s

theorem exec_filter :
    exec .filter s = .next { s with out := s.out ++ [.response (.ok (.records (suppressZero s.port.recs)))] } :=
  complete_eq (.records (suppressZero s.recordsOperand)) s

end Validator

/-! ### The hit time under `wrap64`, and the records FILTER keeps -/

theorem hitFromEnd_wrap64 (endPs : Picos) (arrival : Nat) :
    hitFromEnd .wrap64 endPs arrival = .ok (endPs - BitVec.ofNat 64 (arrival * 10000)) := rfl

theorem sub_ofNat_toNat (x : Picos) (d : Nat) :
    (x - BitVec.ofNat 64 d).toNat = (x.toNat + (2 ^ 64 - d % 2 ^ 64)) % 2 ^ 64 := by
  rw [BitVec.toNat_sub, BitVec.toNat_ofNat, Nat.add_comm]

section Filter
variable {keep : PixelRecord → Bool} (htot : ∀ addr v, keep (.tot addr v) = decide (v ≠ 0))
  (htoa : ∀ addr v a, keep (.toa addr v a) = decide (v ≠ 0))
include htot htoa

/-- Any test that is of the magnitude on both variants keeps the records that the zero suppression keeps. -/
theorem suppressZero_eq_filter (recs : List PixelRecord) : suppressZero recs = recs.filter keep := by
  refine List.filter_congr fun r _ => ?_
  cases r with
  | tot addr v => rw [htot, Bool.eq_iff_iff, bne_iff_ne, decide_eq_true_iff]; rfl
  | toa addr v a => rw [htoa, Bool.eq_iff_iff, bne_iff_ne, decide_eq_true_iff]; rfl

theorem exec_filter_keeps (s : State) :
    exec .filter s = .next { s with out := s.out ++ [.response (.ok (.records (s.port.recs.filter keep)))] } := by
  rw [exec_filter, suppressZero_eq_filter htot htoa]

end Filter

/-- Settles O23: the T0 test decides first, then the shutter order. -/
theorem acceptAppliesThePolicy : Obligations.AcceptAppliesThePolicy := by
  unfold Obligations.AcceptAppliesThePolicy
  refine ⟨rfl, rfl, rfl, rfl, fun s => ?_⟩
  rw [exec_accept, acceptance]

/-- Settles O26: neither policy can raise an error, so only the value depends on it. -/
theorem tsHitTotIsTheMidpoint : Obligations.TsHitTotIsTheMidpoint := by
  unfold Obligations.TsHitTotIsTheMidpoint
  refine ⟨rfl, fun s => ⟨_, ?_, exec_tsHitTot⟩⟩
  cases s.params.tsOverflow with
  | fault => exact midpoint_fault_toNat _ _
  | wrap64 => exact midpoint_wrap64_toNat _ _

/-- Settles O28: the range check of `fault` decides between the two ends of the operation, and `wrap64` has none. -/
theorem tsHitToaSubtractsTheArrival : Obligations.TsHitToaSubtractsTheArrival := by
  unfold Obligations.TsHitToaSubtractsTheArrival
  refine ⟨rfl, fun s => ⟨fun hp hlt => ?_, fun hp hle => ?_, fun hp => ?_⟩⟩
  · exact exec_tsHitToa_error (by rw [hp]; exact hitFromEnd_error hlt)
  · have hok := hitFromEnd_fault_ok hle
    have hexact := hitFromEnd_fault_eq_ok hok
    exact ⟨_, Nat.eq_sub_of_add_eq hexact, exec_tsHitToa_ok (by rw [hp]; exact hok)⟩
  · exact ⟨_, sub_ofNat_toNat _ _, exec_tsHitToa_ok (by rw [hp]; exact hitFromEnd_wrap64 _ _)⟩

/-- Settles O30: a record's magnitude is the field tested, in either variant, and filtering keeps order and
duplicates. -/
theorem filterDropsZeroMagnitudes : Obligations.FilterDropsZeroMagnitudes := by
  unfold Obligations.FilterDropsZeroMagnitudes
  exact ⟨rfl, exec_filter_keeps (fun _ _ => rfl) (fun _ _ _ => rfl)⟩

end Sys2Proof.Proofs
end

-- ==== The configuration registers (44_conversion.md) ====
section
namespace Sys2Proof.Proofs
open Sys2Proof.Machine

/-! ### The two writes -/

theorem exec_cfgPlaneId (s : State) :
    exec .cfgPlaneId s = .next { s with planeId := s.port.v, out := s.out ++ [.response (.ok .noValue)] } :=
  complete_eq .noValue (s.writePlaneId s.valueOperand)

theorem exec_cfgAcqMode (v : ModeByte) (s : State) :
    exec (.cfgAcqMode v) s = .next { s with acqMode := v, out := s.out ++ [.response (.ok .noValue)] } :=
  complete_eq .noValue (s.writeAcqMode v)

/-- The OPC selects the operation, and MODE is its operand whatever its value. -/
theorem decodeWord_cfgAcqMode (v : ModeByte) : decodeWord (commandWord v 0x11) = .ok (.cfgAcqMode v) := by
  simp [decodeWord]

/-! ### What a CONVERT sends -/

section Convert
variable {s u : State} {bytes : List Byte} {ev : OutEvent} {tail : List Output}

/-- CONVERT appends to the output and does not read it: the log behind it changes neither the latches it leaves nor
what it sends. -/
theorem exec_convert_appends (s : State) : ∃ (l : Latches) (new : List Output), ∀ out : List Output,
    exec .convert { s with out := out } = .next { s with latches := l, out := out ++ new } := by
  rcases execConvert_cases s with ⟨k, hwords, -⟩ | ⟨words, x, l, hwords, hstop, -⟩ | ⟨words, L, hwords, hL, -⟩
  · exact ⟨s.latches, _, fun out => execConvert_malformed (s := { s with out := out }) hwords⟩
  · exact ⟨l, _, fun out => execConvert_stops (s := { s with out := out }) hwords hstop⟩
  · exact ⟨L, [.event (outEvent s.params s.planeId s.port.ev.tags L), .response (.ok .converted)],
      fun out => execConvert_converts (s := { s with out := out }) hwords hL⟩

theorem stopOutputs_ne_event (x : Stop) : stopOutputs x ≠ .event ev :: tail := by
  cases x <;> simp [stopOutputs]

/-- Only a conversion sends an event, so an event sent is the one built from the latches that the stages left and from
the configuration. -/
theorem event_of_convert (h : exec .convert s = .next u) (he : u.out = s.out ++ .event ev :: tail) :
    ∃ words L, eventWords s.params.byteOrder s.port.ev = .ok words ∧ Converts s.params s.acqMode words L ∧
      ev = outEvent s.params s.planeId s.port.ev.tags L := by
  rcases execConvert_cases s with ⟨k, -, hk⟩ | ⟨words, x, l, -, -, hx⟩ | ⟨words, L, hwords, hL, hev⟩
  · cases h.symm.trans hk
    exact absurd (List.append_cancel_left he) (stopOutputs_ne_event (.skip k))
  · cases h.symm.trans hx
    exact absurd (List.append_cancel_left he) (stopOutputs_ne_event x)
  · cases h.symm.trans hev
    obtain ⟨hhead, -⟩ := List.cons.inj (List.append_cancel_left he)
    exact ⟨words, L, hwords, hL, (Output.event.inj hhead).symm⟩

/-- An accepted frame whose length passes the check reaches the unpacker, which has no layout for an unsupported mode
(R135). -/
theorem exec_convert_unsupportedMode (hb : s.port.ev.blocks = [bytes]) (h4 : bytes.length % 4 = 0)
    (h24 : 24 ≤ bytes.length)
    (hacc : acceptance (s.params.hdr.decode ((assemble s.params.byteOrder bytes).take 6)) = .accepted)
    (hlen : s.params.lengthCheck = .requireEqual →
      (s.params.hdr.decode ((assemble s.params.byteOrder bytes).take 6)).length =
        ((assemble s.params.byteOrder bytes).drop 6).length)
    (hmode : 2 ≤ s.acqMode.toNat) :
    ∃ l, exec .convert s = .next { s with
      latches := l, out := s.out ++ [.response (.error (.unsupportedMode s.acqMode))] } := by
  obtain ⟨hwords, h6⟩ := eventWords_of_block (order := s.params.byteOrder) hb h4 h24
  have hunpack (l : Latches) : configuredUnpackStage s.params s.acqMode
      (payloadOf (assemble s.params.byteOrder bytes)) l = (l, some (.hard (.unsupportedMode s.acqMode))) := by
    rw [configuredUnpackStage, (AcqMode.ofByte?_eq_none _).2 hmode]
  exact ⟨_, execConvert_stops hwords ((stages_of_accepted h6 hacc _ _).trans
    ((runStages_cons_none (length_passes ((lengthStop_eq_none _ _ _).2 hlen)) _).trans
      (runStages_cons_some (hunpack _) _)))⟩

end Convert

/-! ### The pixels and magnitudes of an event's hits -/

/-- Where a hit is and how large, without its time. -/
def hitPixel (hit : Hit) : Nat × Nat × Nat := (hit.col.toNat, hit.row.toNat, hit.tot)

/-- Where a record is and its magnitude, without its arrival. -/
def recordPixel (r : PixelRecord) : Nat × Nat × Nat := (r.addr.col, r.addr.row, r.magnitude)

/-- A valid address fits the hit's column and row, so it is not truncated. -/
theorem hitPixel_hitEntry {r : PixelRecord} (h : r.addr.valid = true) (t : Picos) :
    hitPixel (hitEntry r t) = recordPixel r := by
  obtain ⟨hcol, hrow⟩ := (PixelAddress.valid_iff _).1 h
  simp only [hitPixel, hitEntry, recordPixel, BitVec.toNat_ofNat]
  rw [Nat.mod_eq_of_lt hcol, Nat.mod_eq_of_lt hrow]

theorem map_hitPixel_zip {recs : List PixelRecord} {times : List Picos} (hlen : recs.length = times.length)
    (hvalid : ∀ r ∈ recs, r.addr.valid = true) :
    ((recs.zip times).map fun x => hitEntry x.1 x.2).map hitPixel = recs.map recordPixel := by
  calc ((recs.zip times).map fun x => hitEntry x.1 x.2).map hitPixel
      = (recs.zip times).map (recordPixel ∘ Prod.fst) := by
        rw [List.map_map]
        exact List.map_congr_left fun x hx => hitPixel_hitEntry (hvalid x.1 (List.of_mem_zip hx).1) x.2
    _ = recs.map recordPixel := by rw [← List.map_map, List.map_fst_zip hlen.le]

/-- A converted frame has one hit for each unit of nonzero magnitude, decoded under the mode that has the configured
value. -/
theorem converts_hitPixels {p : Params} {mode : ModeByte} {words : List Word} {L : Latches}
    (h : Converts p mode words L) : ∃ m : AcqMode, mode = m.byte ∧
      L.hits.map hitPixel = (suppressZero (unitRecords p m (words.drop 6))).map recordPixel := by
  obtain ⟨m, hmode, -, hvalid, -, hrecs⟩ := h.unpacked
  obtain ⟨times, htimes, hhits⟩ := h.hits
  rw [hrecs] at htimes hhits
  refine ⟨m, hmode, ?_⟩
  rw [hhits]
  refine map_hitPixel_zip htimes.length_eq fun r hr => ?_
  obtain ⟨k, hk, rfl⟩ := List.mem_map.1 (mem_suppressZero.1 hr).1
  exact hvalid k (List.mem_range.1 hk)

/-- Settles O34: the write is the operation's only change, and the event's `plane_id` is the register. -/
theorem cfgPlaneIdWritesRegister : Obligations.CfgPlaneIdWritesRegister := by
  unfold Obligations.CfgPlaneIdWritesRegister
  refine ⟨rfl, fun s => ⟨exec_cfgPlaneId s, fun t u o ev tail ht hu he => ?_⟩⟩
  cases (exec_cfgPlaneId s).symm.trans ht
  obtain ⟨words, L, -, -, rfl⟩ := event_of_convert hu he
  rfl

/-- Settles O35: the state after the write and the state whose register holds the value differ only in their outputs,
which CONVERT does not read; the unpacker then decides by the value. -/
theorem cfgAcqModeWritesRegister : Obligations.CfgAcqModeWritesRegister := by
  unfold Obligations.CfgAcqModeWritesRegister
  refine fun s v => ⟨decodeWord_cfgAcqMode v, exec_cfgAcqMode v s, fun t u o ht hu => ?_⟩
  cases (exec_cfgAcqMode v s).symm.trans ht
  refine ⟨?_, fun bytes hb => ⟨fun h4 h24 ht0 hshutter hlen hmode => ?_, fun ev tail he => ?_⟩⟩
  · obtain ⟨l, new, hnew⟩ := exec_convert_appends { s with port := o, acqMode := v }
    cases hu.symm.trans (hnew (s.out ++ [.response (.ok .noValue)]))
    exact ⟨_, new, hnew s.out, rfl, rfl⟩
  · obtain ⟨l, hstop⟩ := exec_convert_unsupportedMode
      (s := { s with port := o, acqMode := v, out := s.out ++ [.response (.ok .noValue)] }) hb h4 h24
      ((acceptance_eq_accepted _).2 ⟨ht0, hshutter⟩) hlen hmode
    cases hu.symm.trans hstop
    rfl
  · obtain ⟨words, L, hwords, hL, rfl⟩ := event_of_convert hu he
    obtain ⟨bytes', hb', -, -, rfl⟩ := eventWords_eq_ok.1 hwords
    cases hb.symm.trans hb'
    obtain ⟨m, hmode, hpixels⟩ := converts_hitPixels hL
    rw [suppressZero_eq_filter (keep := fun r => r.magnitude ≠ 0) (fun _ _ => rfl) (fun _ _ _ => rfl)] at hpixels
    exact ⟨m, hmode, hpixels⟩

end Sys2Proof.Proofs
end

-- ==== Errors (60_exceptions.md) ====
section
namespace Sys2Proof.Proofs
open Sys2Proof.Machine

/-! ### A code alone says its class (R150) -/

section Codes
variable {c : BitVec 8}

theorem classOfCode_eq_ok : classOfCode c = some .ok ↔ c = 0x00 := by
  unfold classOfCode
  split_ifs with h0
  · simp [h0]
  · simpa using h0
  · simpa using h0
  · simpa using h0

theorem classOfCode_eq_skip : classOfCode c = some .skip ↔ 1 ≤ c.toNat ∧ c.toNat ≤ 3 := by
  change _ ↔ 0x01 ≤ c ∧ c ≤ 0x03
  unfold classOfCode
  split_ifs with h0 hskip
  · simp [h0]
  · simpa using hskip
  · simpa using hskip
  · simpa using hskip

theorem classOfCode_eq_hardError : classOfCode c = some .hardError ↔ 0x10 ≤ c.toNat ∧ c.toNat ≤ 0x17 := by
  change _ ↔ 0x10 ≤ c ∧ c ≤ 0x17
  unfold classOfCode
  split_ifs with h0 hskip hhard
  · simp [h0]
  · have hrange : ¬ (0x10 ≤ c ∧ c ≤ 0x17) := by bv_omega
    simpa using hrange
  · simpa using hhard
  · simpa using hhard

/-- Every code of R147's table lies in the range of its response's class. -/
theorem classOfCode_code (r : Response) : classOfCode r.code = some r.outcomeClass := by
  cases r with
  | ok result => rfl
  | skip k => cases k <;> rfl
  | error e => cases e <;> rfl

/-- So a class is read off the code. -/
theorem outcomeClass_eq_iff {r : Response} {o : OutcomeClass} :
    r.outcomeClass = o ↔ classOfCode r.code = some o := by
  rw [classOfCode_code, Option.some.injEq]

end Codes

/-- Settles O46: the codes are the table's by definition, and the class read off a code decides each equivalence. -/
theorem statusCodeTellsTheClass : Obligations.StatusCodeTellsTheClass := by
  unfold Obligations.StatusCodeTellsTheClass
  refine fun r => ⟨?_, outcomeClass_eq_iff.trans classOfCode_eq_ok, outcomeClass_eq_iff.trans classOfCode_eq_skip,
    outcomeClass_eq_iff.trans classOfCode_eq_hardError⟩
  cases r with
  | ok result => rfl
  | skip k => cases k <;> rfl
  | error e => cases e <;> rfl

/-! ### All or nothing (R156) -/

/-- The response is the last output, so what an operation sent fixes both it and the outputs before it. -/
theorem before_response_of_out {out new before : List Output} {r resp : Response}
    (h : out ++ (new ++ [.response r]) = out ++ before ++ [.response resp]) : before = new ∧ resp = r := by
  rw [List.append_assoc] at h
  obtain ⟨hbefore, hresp⟩ := List.append_inj' (List.append_cancel_left h) rfl
  exact ⟨hbefore.symm, (Output.response.inj (List.cons.inj hresp).1).symm⟩

/-- Settles O47, by the four ways an operation ends: the two that answer OK are excluded, and a hard error or a skip
writes nothing but the latches and its own outputs. -/
theorem failedOperationsLeaveNothing : Obligations.FailedOperationsLeaveNothing := by
  unfold Obligations.FailedOperationsLeaveNothing
  intro i s t resp before hexec hout hfail
  cases exec_ends hexec with
  | ok r l planeId acqMode state =>
    subst state
    obtain ⟨-, rfl⟩ := before_response_of_out (new := []) hout
    exact absurd rfl hfail
  | hard e l state =>
    subst state
    obtain ⟨rfl, rfl⟩ := before_response_of_out (new := []) hout
    exact ⟨rfl, fun _ => rfl, nofun⟩
  | skip k l instr state =>
    subst state
    obtain ⟨rfl, rfl⟩ := before_response_of_out (new := [.diag k.diagnostic]) hout
    exact ⟨rfl, nofun, fun _ => ⟨instr, k, rfl, rfl⟩⟩
  | converted words l instr shape converts state =>
    subst state
    obtain ⟨-, rfl⟩ := before_response_of_out (new := [.event _]) hout
    exact absurd rfl hfail

end Sys2Proof.Proofs
end

-- ==== Command decode (30_encoding.md) ====
section
namespace Sys2Proof.Proofs
open Sys2Proof.Machine

/-! ### All that decode can do -/

/-- What `decode` answers for a command word, by the first field that decides it (R62). -/
inductive Decoding (w : Word) : Prop where
  /-- RSV is not 0. -/
  | reserved (rsv : rsvOf w ≠ 0) (result : decodeWord w = .error (.illegalCommand w))
  /-- The opcode is not in R63. -/
  | unassigned
      (opc : (opcOf w).toNat ∉ [0x01, 0x02, 0x03, 0x04, 0x05, 0x06, 0x07, 0x08, 0x09, 0x0A, 0x10, 0x11])
      (result : decodeWord w = .error (.illegalCommand w))
  /-- The opcode needs MODE 0. -/
  | modeZero (i : Instr) (rsv : rsvOf w = 0)
      (opc : (opcOf w).toNat ∈ [0x01, 0x03, 0x04, 0x06, 0x07, 0x08, 0x09, 0x0A, 0x10])
      (word : encode i = commandWord 0x00 (opcOf w)) (result : decodeWord w = decodeModeZero w i)
  /-- The opcode's MODE is an acquisition mode. -/
  | byMode (tot toa : Instr) (rsv : rsvOf w = 0) (opc : (opcOf w).toNat ∈ [0x02, 0x05])
      (totWord : encode tot = commandWord 0x00 (opcOf w)) (toaWord : encode toa = commandWord 0x01 (opcOf w))
      (result : decodeWord w = decodeByMode (modeOf w) tot toa)
  /-- The opcode's MODE is an operand. -/
  | anyMode (rsv : rsvOf w = 0) (opc : opcOf w = 0x11) (result : decodeWord w = .ok (.cfgAcqMode (modeOf w)))

/-- An opcode of R63 that needs MODE 0. -/
theorem decoding_modeZero {w : Word} {i : Instr} {o : BitVec 8} (hrsv : rsvOf w = 0) (hopc : opcOf w = o)
    (ho : o.toNat ∈ [0x01, 0x03, 0x04, 0x06, 0x07, 0x08, 0x09, 0x0A, 0x10])
    (hword : encode i = commandWord 0x00 o) (hresult : decodeWord w = decodeModeZero w i) : Decoding w := by
  subst hopc
  exact .modeZero i hrsv ho hword hresult

/-- An opcode of R63 whose MODE is an acquisition mode. -/
theorem decoding_byMode {w : Word} {tot toa : Instr} {o : BitVec 8} (hrsv : rsvOf w = 0) (hopc : opcOf w = o)
    (ho : o.toNat ∈ [0x02, 0x05]) (htot : encode tot = commandWord 0x00 o) (htoa : encode toa = commandWord 0x01 o)
    (hresult : decodeWord w = decodeByMode (modeOf w) tot toa) : Decoding w := by
  subst hopc
  exact .byMode tot toa hrsv ho htot htoa hresult

theorem decodeWord_of_reserved {w : Word} (h : rsvOf w ≠ 0) : decodeWord w = .error (.illegalCommand w) := by
  rw [decodeWord, if_pos h]

theorem decodeWord_cases (w : Word) : Decoding w := by
  by_cases hrsv : rsvOf w = 0
  swap
  · exact .reserved hrsv (decodeWord_of_reserved hrsv)
  generalize hd : decodeWord w = d
  have hresult := hd
  rw [decodeWord, if_neg (not_not.2 hrsv)] at hd
  subst hd
  split at hresult
  next h => exact decoding_modeZero hrsv h (by decide) rfl hresult
  next h => exact decoding_byMode hrsv h (by decide) rfl rfl hresult
  next h => exact decoding_modeZero hrsv h (by decide) rfl hresult
  next h => exact decoding_modeZero hrsv h (by decide) rfl hresult
  next h => exact decoding_byMode hrsv h (by decide) rfl rfl hresult
  next h => exact decoding_modeZero hrsv h (by decide) rfl hresult
  next h => exact decoding_modeZero hrsv h (by decide) rfl hresult
  next h => exact decoding_modeZero hrsv h (by decide) rfl hresult
  next h => exact decoding_modeZero hrsv h (by decide) rfl hresult
  next h => exact decoding_modeZero hrsv h (by decide) rfl hresult
  next h => exact decoding_modeZero hrsv h (by decide) rfl hresult
  next h => exact .anyMode hrsv h hresult
  next =>
    refine .unassigned ?_ hresult
    simp only [List.mem_cons, List.not_mem_nil, or_false, not_or]
    simp_all [← BitVec.toNat_inj]

/-! ### Decode and encode agree -/

/-- A command word is known by its three fields. -/
theorem eq_commandWord {w : Word} {m : ModeByte} {o : BitVec 8} (hrsv : rsvOf w = 0) (hmode : modeOf w = m)
    (hopc : opcOf w = o) : w = commandWord m o := by
  rw [← fields_append w, hrsv, hmode, hopc, commandWord]

theorem decodeModeZero_eq_ok {w : Word} {i j : Instr} (h : decodeModeZero w i = .ok j) : modeOf w = 0 ∧ i = j := by
  unfold decodeModeZero at h
  split at h
  next hmode => exact ⟨hmode, Except.ok.inj h⟩
  next => cases h

theorem decodeByMode_eq_ok {m : ModeByte} {tot toa j : Instr} (h : decodeByMode m tot toa = .ok j) :
    (m = 0x00 ∧ tot = j) ∨ (m = 0x01 ∧ toa = j) := by
  unfold decodeByMode at h
  split at h
  next hm => exact .inl ⟨AcqMode.ofByte?_eq_some hm, Except.ok.inj h⟩
  next hm => exact .inr ⟨AcqMode.ofByte?_eq_some hm, Except.ok.inj h⟩
  next => cases h

theorem encode_of_decodeWord {w : Word} {i : Instr} (h : decodeWord w = .ok i) : w = encode i := by
  cases decodeWord_cases w with
  | reserved rsv result => cases h.symm.trans result
  | unassigned opc result => cases h.symm.trans result
  | modeZero j rsv opc word result =>
    obtain ⟨hmode, rfl⟩ := decodeModeZero_eq_ok (result.symm.trans h)
    rw [word]
    exact eq_commandWord rsv hmode rfl
  | byMode tot toa rsv opc totWord toaWord result =>
    rcases decodeByMode_eq_ok (result.symm.trans h) with ⟨hmode, rfl⟩ | ⟨hmode, rfl⟩
    · rw [totWord]
      exact eq_commandWord rsv hmode rfl
    · rw [toaWord]
      exact eq_commandWord rsv hmode rfl
  | anyMode rsv opc result =>
    cases h.symm.trans result
    exact eq_commandWord rsv rfl opc

theorem decodeWord_encode (i : Instr) : decodeWord (encode i) = .ok i := by
  cases i with
  | cfgAcqMode v => exact decodeWord_cfgAcqMode v
  | _ => rfl

theorem wellFormed_eq_true (i : Instr) : i.wellFormed = true := by
  cases i <;> rfl

/-- Settles O5: the fields fix the word, and every instruction that a word decodes to is encoded with those fields. -/
theorem commandCodecAgrees : Obligations.CommandCodecAgrees := by
  unfold Obligations.CommandCodecAgrees
  intro w i
  constructor
  · exact fun h => ⟨wellFormed_eq_true i, encode_of_decodeWord h⟩
  · rintro ⟨-, rfl⟩
    exact decodeWord_encode i

/-- Settles O6: each word is the encoding of its instruction. -/
theorem fixedCommandWordsDecode : Obligations.FixedCommandWordsDecode := by
  unfold Obligations.FixedCommandWordsDecode
  exact ⟨decodeWord_encode .hdr, decodeWord_encode .frameTot, decodeWord_encode .frameToa, decodeWord_encode .accept,
    decodeWord_encode .tsFrame, decodeWord_encode .tsHitTot, decodeWord_encode .tsHitToa, decodeWord_encode .filter,
    decodeWord_encode .convert, decodeWord_encode .recValue, decodeWord_encode .recMode,
    decodeWord_encode .recArrival, decodeWord_encode .cfgPlaneId, decodeWord_cfgAcqMode⟩

/-! ### The words that decode rejects -/

/-- An opcode that needs MODE 0 is one of R63, and its MODE is no operand. -/
theorem modeZero_opcode {n : Nat} (h : n ∈ [0x01, 0x03, 0x04, 0x06, 0x07, 0x08, 0x09, 0x0A, 0x10]) :
    n ∈ [0x01, 0x02, 0x03, 0x04, 0x05, 0x06, 0x07, 0x08, 0x09, 0x0A, 0x10, 0x11] ∧ n ∉ [0x02, 0x05] := by
  simp only [List.mem_cons, List.not_mem_nil, or_false] at h ⊢
  omega

/-- An opcode whose MODE is an acquisition mode is one of R63, and its MODE is an operand. -/
theorem byMode_opcode {n : Nat} (h : n ∈ [0x02, 0x05]) :
    n ∈ [0x01, 0x02, 0x03, 0x04, 0x05, 0x06, 0x07, 0x08, 0x09, 0x0A, 0x10, 0x11] ∧ n ∈ [0x02, 0x05, 0x11] := by
  simp only [List.mem_cons, List.not_mem_nil, or_false] at h ⊢
  omega

theorem decodeWord_illegal {w : Word}
    (h : (rsvOf w).toNat ≠ 0 ∨
      (opcOf w).toNat ∉ [0x01, 0x02, 0x03, 0x04, 0x05, 0x06, 0x07, 0x08, 0x09, 0x0A, 0x10, 0x11] ∨
      ((opcOf w).toNat ∉ [0x02, 0x05, 0x11] ∧ (modeOf w).toNat ≠ 0)) :
    decodeWord w = .error (.illegalCommand w) := by
  cases decodeWord_cases w with
  | reserved rsv result => exact result
  | unassigned opc result => exact result
  | modeZero i rsv opc word result =>
    rcases h with h | h | ⟨-, h⟩
    · exact absurd (congrArg BitVec.toNat rsv) h
    · exact absurd (modeZero_opcode opc).1 h
    · rw [result]
      exact decodeModeZero_error (fun hmode => h (congrArg BitVec.toNat hmode)) i
  | byMode tot toa rsv opc totWord toaWord result =>
    rcases h with h | h | ⟨h, -⟩
    · exact absurd (congrArg BitVec.toNat rsv) h
    · exact absurd (byMode_opcode opc).1 h
    · exact absurd (byMode_opcode opc).2 h
  | anyMode rsv opc result =>
    rw [opc] at h
    rcases h with h | h | ⟨h, -⟩
    · exact absurd (congrArg BitVec.toNat rsv) h
    · exact absurd (by decide) h
    · exact absurd (by decide) h

theorem decodeWord_unsupportedMode {w : Word} (hrsv : rsvOf w = 0) (hopc : (opcOf w).toNat ∈ [0x02, 0x05])
    (hmode : 2 ≤ (modeOf w).toNat) : decodeWord w = .error (.unsupportedMode (modeOf w)) := by
  cases decodeWord_cases w with
  | reserved rsv result => exact absurd hrsv rsv
  | unassigned opc result => exact absurd (byMode_opcode hopc).1 opc
  | modeZero i rsv opc word result => exact absurd hopc (modeZero_opcode opc).2
  | byMode tot toa rsv opc totWord toaWord result => rw [result, decodeByMode_error hmode]
  | anyMode rsv opc result =>
    rw [opc] at hopc
    exact absurd hopc (by decide)

/-- Settles O3: decode answers the error before an operand is read, and the step adds only its response. -/
theorem illegalCommandsAreRejected : Obligations.IllegalCommandsAreRejected := by
  unfold Obligations.IllegalCommandsAreRejected
  intro s r rest hpending hcmd
  rw [← rsvOf_toNat, ← opcOf_toNat, ← modeOf_toNat] at hcmd
  exact step_of_rejected hpending (decodeWord_illegal hcmd)

/-- Settles O4: FRAME and TS_HIT are rejected by decode too when no layout has the mode. -/
theorem unsupportedCommandModesAreRejected : Obligations.UnsupportedCommandModesAreRejected := by
  unfold Obligations.UnsupportedCommandModesAreRejected
  intro s r rest hpending hrsv hopc hmode
  rw [← rsvOf_eq_zero] at hrsv
  rw [← opcOf_toNat] at hopc
  rw [← modeOf_toNat] at hmode
  rw [← modeOf_eq_ofNat]
  exact step_of_rejected hpending (decodeWord_unsupportedMode hrsv hopc hmode)

/-! ### Assembly lines -/

theorem decodeWord_pseudoFrameMode (m : ModeByte) :
    decodeWord (pseudoFrameMode m) = decodeByMode m .frameTot .frameToa := by
  simp [decodeWord, pseudoFrameMode]

theorem decodeWord_pseudoTsHitMode (m : ModeByte) :
    decodeWord (pseudoTsHitMode m) = decodeByMode m .tsHitTot .tsHitToa := by
  simp [decodeWord, pseudoTsHitMode]

theorem decodeWord_command (l : AsmLine) : decodeWord l.command = l.operation := by
  cases l with
  | cfgAcqMode v => exact decodeWord_cfgAcqMode v
  | frameMode m payload => exact decodeWord_pseudoFrameMode m
  | tsHitMode m startPs endPs arrival => exact decodeWord_pseudoTsHitMode m
  | cfgTot => exact decodeWord_cfgAcqMode 0x00
  | cfgToa => exact decodeWord_cfgAcqMode 0x01
  | _ => simp only [AsmLine.command, AsmLine.operation]; rfl

/-- Settles O7: a line's command word is the encoding of its operation, and the pseudo-instructions leave the choice to
decode by MODE. -/
theorem assemblyLinesDecode : Obligations.AssemblyLinesDecode := by
  unfold Obligations.AssemblyLinesDecode
  intro order others decoded
  refine ⟨decodeWord_command, fun payload startPs endPs arrival => ⟨?_, ?_, ?_, ?_, fun m hm => ⟨?_, ?_⟩⟩⟩
  · exact (decodeWord_pseudoFrameMode _).trans (decodeByMode_byte .totOnly _ _)
  · exact (decodeWord_pseudoFrameMode _).trans (decodeByMode_byte .totToa _ _)
  · exact (decodeWord_pseudoTsHitMode _).trans (decodeByMode_byte .totOnly _ _)
  · exact (decodeWord_pseudoTsHitMode _).trans (decodeByMode_byte .totToa _ _)
  · exact (decodeWord_pseudoFrameMode m).trans (decodeByMode_error hm _ _)
  · exact (decodeWord_pseudoTsHitMode m).trans (decodeByMode_error hm _ _)

end Sys2Proof.Proofs
end

-- ==== Requests and steps (10_state.md) ====
section
namespace Sys2Proof.Proofs
open Sys2Proof.Machine

/-! ### What one operation sends -/

/-- The outputs of one whole operation, in order: one response, last, and before it an event only at CONVERTED and a
diagnostic record only at a skip (R26, R52, R140, R160). -/
inductive OperationOutputs : List Output → Prop where
  | ok (r : Result) (plain : r ≠ .converted) : OperationOutputs [.response (.ok r)]
  | hard (e : HardError) : OperationOutputs [.response (.error e)]
  | skip (k : Skip) : OperationOutputs [.diag k.diagnostic, .response (.skip k)]
  | converted (ev : OutEvent) : OperationOutputs [.event ev, .response (.ok .converted)]

/-- What every operation keeps, and what it adds to the output. -/
structure Answers (s t : State) : Prop where
  params : t.params = s.params
  pending : t.pending = s.pending
  unanswered : t.unanswered = s.unanswered
  out : ∃ new, OperationOutputs new ∧ t.out = s.out ++ new

theorem answers_of_ends {i : Instr} {s t : State} (h : Ends i s t) : Answers s t := by
  cases h with
  | ok r l planeId acqMode state plain => subst state; exact ⟨rfl, rfl, rfl, _, .ok r plain, rfl⟩
  | hard e l state => subst state; exact ⟨rfl, rfl, rfl, _, .hard e, rfl⟩
  | skip k l instr state => subst state; exact ⟨rfl, rfl, rfl, _, .skip k, rfl⟩
  | converted words l instr shape converts state => subst state; exact ⟨rfl, rfl, rfl, _, .converted _, rfl⟩

/-- A step that takes a request answers it from the state in which the request has left the queue. -/
theorem step_answers {s t : State} {r : Request} {rest : List Request} (hp : s.pending = r :: rest)
    (h : step s = .next t) : Answers (s.beginOperation rest) t := by
  rcases hd : decodeWord r.cmd with e | i
  · cases h.symm.trans (step_of_rejected hp hd)
    exact ⟨rfl, rfl, rfl, _, .hard e, rfl⟩
  · obtain ⟨hparams, hpending, hunanswered, hout⟩ := answers_of_ends (exec_ends ((step_of_decoded hp hd).symm.trans h))
    exact ⟨hparams, hpending, hunanswered, hout⟩

/-- Before its response an operation sends at most one output, which is no response. -/
theorem OperationOutputs.response_last {new : List Output} (h : OperationOutputs new) :
    ∃ before resp, before.length ≤ 1 ∧ (∀ o ∈ before, ∀ x, o ≠ .response x) ∧ new = before ++ [.response resp] := by
  cases h with
  | ok r plain => exact ⟨[], _, by simp, by simp, rfl⟩
  | hard e => exact ⟨[], _, by simp, by simp, rfl⟩
  | skip k => exact ⟨[.diag k.diagnostic], _, by simp, by simp, rfl⟩
  | converted ev => exact ⟨[.event ev], _, by simp, by simp, rfl⟩

/-- Settles O1: the state that step hands to exec is the one the statement writes out. -/
theorem stepRunsTheDecodedInstruction : Obligations.StepRunsTheDecodedInstruction := by
  unfold Obligations.StepRunsTheDecodedInstruction
  intro s r rest i hpending hdecode
  exact step_of_decoded hpending hdecode

theorem decodeTableWord_eq_some {nbits w : Nat} {i : Instr} (h : decodeTableWord nbits w = some i) :
    decodeWord (BitVec.ofNat 32 (w % 2 ^ nbits)) = .ok i := by
  unfold decodeTableWord at h
  rcases hd : decodeWord (BitVec.ofNat 32 (w % 2 ^ nbits)) with e | j
  · rw [hd] at h
    cases h
  · rw [hd] at h
    cases h
    rfl

/-- Settles O2: the placed word is the request in front, and the operands it brings are those on the port. -/
theorem placedCommandRuns : Obligations.PlacedCommandRuns := by
  unfold Obligations.PlacedCommandRuns
  intro s w i hdecode
  exact step_of_decoded (s.withFetchWord_pending 32 w) (decodeTableWord_eq_some hdecode)

/-- Settles O8. -/
theorem emptyQueueWaits : Obligations.EmptyQueueWaits := by
  unfold Obligations.EmptyQueueWaits
  exact fun s => step_of_idle

/-- Settles O9: waiting, rejecting and running each answer a next state. -/
theorem everyStepAnswersNext : Obligations.EveryStepAnswersNext := by
  unfold Obligations.EveryStepAnswersNext
  exact fun s => ⟨s.advance, step_advance s⟩

/-- Settles O10. -/
theorem oneResponsePerRequest : Obligations.OneResponsePerRequest := by
  unfold Obligations.OneResponsePerRequest
  intro s t r rest hp h
  obtain ⟨hparams, hpending, -, new, hnew, hout⟩ := step_answers hp h
  obtain ⟨before, resp, hlen, hbefore, rfl⟩ := hnew.response_last
  exact ⟨hpending, hparams, before, resp, hlen, hbefore, by rw [List.append_assoc]; exact hout⟩

/-! ### Requests that wait behind others -/

/-- The request in front is answered as if no other waited behind it. -/
theorem step_issue {s t : State} (r : Request) (hp : s.pending ≠ []) (h : step s = .next t) :
    step (s.issue r) = .next (t.issue r) := by
  obtain ⟨q, rest, hq⟩ := List.exists_cons_of_ne_nil hp
  have hq' : (s.issue r).pending = q :: (rest ++ [r]) := by rw [State.issue_pending, hq, List.cons_append]
  rcases hd : decodeWord q.cmd with e | i
  · cases h.symm.trans (step_of_rejected hq hd)
    exact step_of_rejected hq' hd
  · rw [step_of_decoded hq hd] at h
    rw [step_of_decoded hq' hd]
    exact exec_issue r h

theorem runSteps_of_step {s t : State} (h : step s = .next t) (n : Nat) : runSteps (n + 1) s = runSteps n t := by
  simp only [runSteps, h]

/-- As many steps as requests are pending take exactly those. -/
theorem runSteps_issue {n : Nat} {s t : State} (r : Request) (hn : s.pending.length = n)
    (h : runSteps n s = .next t) : runSteps n (s.issue r) = .next (t.issue r) ∧ t.pending = [] := by
  induction n generalizing s with
  | zero =>
    cases h
    exact ⟨rfl, List.eq_nil_of_length_eq_zero hn⟩
  | succ n ih =>
    obtain ⟨q, rest, hq⟩ := List.exists_cons_of_length_eq_add_one hn
    have hstep := step_advance s
    have hrest : s.advance.pending = rest := (step_answers hq hstep).pending
    rw [runSteps_of_step hstep] at h
    rw [runSteps_of_step (step_issue r (by rw [hq]; exact List.cons_ne_nil q rest) hstep)]
    exact ih (by rw [hrest]; simpa [hq] using hn) h

/-- Settles O11. -/
theorem requestsArriveBehindThosePending : Obligations.RequestsArriveBehindThosePending := by
  unfold Obligations.RequestsArriveBehindThosePending
  refine fun s r => ⟨rfl, fun hp t h => step_issue r hp h, fun t h => ?_⟩
  obtain ⟨hrun, hpending⟩ := runSteps_issue r rfl h
  exact ⟨hrun, by rw [State.issue_pending, hpending, List.nil_append]⟩

/-! ### What an operation's outputs depend on -/

/-- A stage whose end does not depend on what the latches held before (R21), given the result it leaves in them. -/
def Uniform (stage : Stage) (result : Latches → Result) : Prop :=
  (∃ v, ∀ l, ∃ l', stage l = (l', none) ∧ result l' = v) ∨ ∃ e, ∀ l, ∃ l', stage l = (l', some (.hard e))

theorem runOperation_of_uniform {stage : Stage} {result : Latches → Result} (h : Uniform stage result) :
    ∃ r : Response, ∀ s : State, runOperation [stage] (fun l => complete (result l)) s =
      .next { s with latches := (stage s.latches).1, out := s.out ++ [.response r] } := by
  rcases h with ⟨v, h⟩ | ⟨e, h⟩
  · refine ⟨.ok v, fun s => ?_⟩
    obtain ⟨l', hl', rfl⟩ := h s.latches
    rw [runOperation_none (runStages_cons_none hl' []), hl']
    rfl
  · refine ⟨.error e, fun s => ?_⟩
    obtain ⟨l', hl'⟩ := h s.latches
    rw [runOperation_some (runStages_cons_some hl' []), hl']
    rfl

theorem headerStage_uniform (p : Params) (words : List Word) :
    Uniform (headerStage p words) fun l => .header l.header := by
  by_cases h : 6 ≤ words.length
  · exact .inl ⟨.header (p.hdr.decode (words.take 6)), fun l => ⟨_, headerStage_ok h l, rfl⟩⟩
  · exact .inr ⟨_, fun l => ⟨_, headerStage_error (by omega) l⟩⟩

theorem unpackStage_uniform (p : Params) (m : AcqMode) (payload : List Word) :
    Uniform (unpackStage p m payload) fun l => .records l.recs := by
  rcases unpackStage_cases p m payload default with ⟨h, -⟩ | ⟨h, k, -, hk, hbefore, hbad, -⟩ | ⟨h, hvalid, -⟩
  · exact .inr ⟨_, fun l => ⟨_, unpackStage_length_error l h⟩⟩
  · exact .inr ⟨_, fun l => unpackStage_address_error l h hk hbefore hbad⟩
  · exact .inl ⟨.records (unitRecords p m payload), fun l => ⟨_, unpackStage_ok l h hvalid, rfl⟩⟩

theorem timeStage_uniform (p : Params) (h : FrameHeader) :
    Uniform (timeStage p h) fun l => .frameTimes l.frameStartPs l.frameEndPs := by
  rcases timeStage_cases p h with ⟨e, -, ht⟩ | ⟨a, e, -, -, ht⟩ | ⟨a, b, -, -, ht⟩
  · exact .inr ⟨e, fun l => ⟨_, ht l⟩⟩
  · exact .inr ⟨e, fun l => ⟨_, ht l⟩⟩
  · exact .inl ⟨.frameTimes a b, fun l => ⟨_, ht l, rfl⟩⟩

/-- What an operation other than CONVERT answers and leaves in each register, given the parameters and the operands
alone: it reads no configuration register (R25). -/
def AnswersBy (i : Instr) (p : Params) (o : Operands) : Prop :=
  ∃ (r : Response) (latches : Latches → Latches) (planeId : BitVec 32 → BitVec 32) (acqMode : ModeByte → ModeByte),
    ∀ s : State, s.params = p → s.port = o → exec i s = .next { s with
      planeId := planeId s.planeId, acqMode := acqMode s.acqMode, latches := latches s.latches,
      out := s.out ++ [.response r] }

theorem answersBy_of_uniform {i : Instr} {p : Params} {o : Operands} {stage : Stage} {result : Latches → Result}
    (h : Uniform stage result) (hi : ∀ s : State, s.params = p → s.port = o →
      exec i s = runOperation [stage] (fun l => complete (result l)) s) : AnswersBy i p o := by
  obtain ⟨r, hr⟩ := runOperation_of_uniform h
  exact ⟨r, fun l => (stage l).1, id, id, fun s hp ho => (hi s hp ho).trans (hr s)⟩

theorem answersBy_of_finish {i : Instr} {p : Params} {o : Operands} (x : Except HardError Result)
    (hi : ∀ s : State, s.params = p → s.port = o → exec i s = finish x s) : AnswersBy i p o := by
  cases x with
  | ok r => exact ⟨.ok r, id, id, id, fun s hp ho => (hi s hp ho).trans (complete_eq r s)⟩
  | error e => exact ⟨.error e, id, id, id, fun s hp ho => (hi s hp ho).trans (takeStop_eq (.hard e) s)⟩

theorem exec_answersBy {i : Instr} (hi : i ≠ .convert) (p : Params) (o : Operands) : AnswersBy i p o := by
  cases i with
  | hdr => exact answersBy_of_uniform (headerStage_uniform p o.words) (by rintro s rfl rfl; rfl)
  | frameTot => exact answersBy_of_uniform (unpackStage_uniform p .totOnly o.payload) (by rintro s rfl rfl; rfl)
  | frameToa => exact answersBy_of_uniform (unpackStage_uniform p .totToa o.payload) (by rintro s rfl rfl; rfl)
  | tsFrame => exact answersBy_of_uniform (timeStage_uniform p o.h) (by rintro s rfl rfl; rfl)
  | accept => exact answersBy_of_finish (.ok (.verdict (acceptance o.h))) (by rintro s rfl rfl; rfl)
  | tsHitTot =>
    exact answersBy_of_finish (.ok (.timestamp (midpoint p.tsOverflow o.startPs o.endPs))) (by rintro s rfl rfl; rfl)
  | tsHitToa =>
    exact answersBy_of_finish ((hitFromEnd p.tsOverflow o.endPs o.arrival).map .timestamp) (by rintro s rfl rfl; rfl)
  | filter => exact answersBy_of_finish (.ok (.records (suppressZero o.recs))) (by rintro s rfl rfl; rfl)
  | recValue => exact answersBy_of_finish (.ok (.magnitude o.r.magnitude)) (by rintro s rfl rfl; rfl)
  | recMode => exact answersBy_of_finish (.ok (.mode o.r.acqMode.byte)) (by rintro s rfl rfl; rfl)
  | recArrival => exact answersBy_of_finish ((arrivalOf o.r).map .arrival) (by rintro s rfl rfl; rfl)
  | cfgPlaneId => exact ⟨.ok .noValue, id, fun _ => o.v, id, by rintro s rfl rfl; exact exec_cfgPlaneId s⟩
  | cfgAcqMode v => exact ⟨.ok .noValue, id, id, fun _ => v, fun s _ _ => exec_cfgAcqMode v s⟩
  | convert => exact absurd rfl hi

/-- What CONVERT sends is fixed by the parameters, the operands and the configuration: the latches it starts with are
never read before they are written. -/
theorem exec_convert_sends (p : Params) (o : Operands) (planeId : BitVec 32) (acqMode : ModeByte) :
    ∃ new : List Output, ∀ s : State, s.params = p → s.port = o → s.planeId = planeId → s.acqMode = acqMode →
      ∃ l, exec .convert s = .next { s with latches := l, out := s.out ++ new } := by
  rcases hwords : eventWords p.byteOrder o.ev with k | words
  · exact ⟨_, by rintro s rfl rfl - -; exact ⟨s.latches, execConvert_malformed hwords⟩⟩
  rcases convertStages_cases p acqMode words with ⟨L, hL, -⟩ | ⟨x, hx⟩
  · exact ⟨[.event (outEvent p planeId o.ev.tags L), .response (.ok .converted)],
      by rintro s rfl rfl rfl rfl; exact ⟨L, execConvert_converts hwords hL⟩⟩
  · refine ⟨stopOutputs x, ?_⟩
    rintro s rfl rfl - rfl
    obtain ⟨l, hl⟩ := hx s.latches
    exact ⟨l, execConvert_stops hwords hl⟩

/-- The same for every instruction, with the registers it leaves. -/
theorem exec_sends (i : Instr) (p : Params) (o : Operands) (planeId : BitVec 32) (acqMode : ModeByte) :
    ∃ (new : List Output) (planeId' : BitVec 32) (acqMode' : ModeByte), ∀ s : State,
      s.params = p → s.port = o → s.planeId = planeId → s.acqMode = acqMode →
      ∃ l, exec i s = .next { s with planeId := planeId', acqMode := acqMode', latches := l, out := s.out ++ new } := by
  by_cases hi : i = .convert
  · subst hi
    obtain ⟨new, hnew⟩ := exec_convert_sends p o planeId acqMode
    refine ⟨new, planeId, acqMode, fun s hp ho ha hb => ?_⟩
    obtain ⟨l, hl⟩ := hnew s hp ho ha hb
    subst ha hb
    exact ⟨l, hl⟩
  · obtain ⟨r, latches, f, g, h⟩ := exec_answersBy hi p o
    refine ⟨[.response r], f planeId, g acqMode, ?_⟩
    rintro s hp ho rfl rfl
    exact ⟨latches s.latches, h s hp ho⟩

/-- Only the two CFG operations write a configuration register (R25). -/
theorem registers_of_ends {i : Instr} {s t : State} (h : Ends i s t) :
    (t.planeId ≠ s.planeId → i = .cfgPlaneId) ∧ (t.acqMode ≠ s.acqMode → ∃ v, i = .cfgAcqMode v) := by
  cases h with
  | ok r l planeId acqMode state plain plane mode => subst state; exact ⟨plane, mode⟩
  | hard e l state => subst state; exact ⟨absurd rfl, absurd rfl⟩
  | skip k l instr state => subst state; exact ⟨absurd rfl, absurd rfl⟩
  | converted words l instr shape converts state => subst state; exact ⟨absurd rfl, absurd rfl⟩

/-- Settles O36: the four ways an operation ends say which registers it writes, and an operation other than CONVERT
answers by its parameters and operands alone. -/
theorem onlyCfgWritesAndConvertReads : Obligations.OnlyCfgWritesAndConvertReads := by
  unfold Obligations.OnlyCfgWritesAndConvertReads
  intro i s t h
  obtain ⟨hplane, hmode⟩ := registers_of_ends (exec_ends h)
  refine ⟨hplane, hmode, fun hi a b => ?_⟩
  obtain ⟨r, latches, f, g, hexec⟩ := exec_answersBy hi s.params s.port
  cases h.symm.trans (hexec s rfl rfl)
  exact ⟨_, hexec { s with planeId := a, acqMode := b } rfl rfl, rfl, rfl⟩

/-- Settles O51: a rejected command sends its error, and a decoded one starts in two states that agree on all that its
outputs and the registers after it depend on. -/
theorem equalRequestsGiveEqualOutputs : Obligations.EqualRequestsGiveEqualOutputs := by
  unfold Obligations.EqualRequestsGiveEqualOutputs
  intro s s' t t' r rest rest' hparams hplane hmode hp hp' h h'
  rcases hd : decodeWord r.cmd with e | i
  · cases h.symm.trans (step_of_rejected hp hd)
    cases h'.symm.trans (step_of_rejected hp' hd)
    exact ⟨⟨_, rfl, rfl⟩, hplane, hmode⟩
  · obtain ⟨new, planeId, acqMode, hsends⟩ := exec_sends i s.params r.operands s.planeId s.acqMode
    obtain ⟨l, hl⟩ := hsends ((s.beginOperation rest).loadPort r.operands) rfl rfl rfl rfl
    obtain ⟨l', hl'⟩ := hsends ((s'.beginOperation rest').loadPort r.operands) hparams.symm rfl hplane.symm hmode.symm
    cases h.symm.trans ((step_of_decoded hp hd).trans hl)
    cases h'.symm.trans ((step_of_decoded hp' hd).trans hl')
    exact ⟨⟨new, rfl, rfl⟩, rfl, rfl⟩

end Sys2Proof.Proofs
end

-- ==== Encoders and decoders (30_encoding.md, 41_header.md, 42_frame.md) ====
section
namespace Sys2Proof.Proofs
open Sys2Proof.Machine

/-! ### Fields packed into words -/

/-- What several fields, each with its value, add to word `i`. -/
def placeAll (fields : List (FieldMap × Nat)) (i : Nat) : Nat :=
  fields.foldr (fun f rest => f.1.place f.2 i ||| rest) 0

/-- The slices of several fields. -/
def slicesOf (fields : List (FieldMap × Nat)) : List Slice := fields.flatMap Prod.fst

theorem placeAll_append (fs gs : List (FieldMap × Nat)) (i : Nat) :
    placeAll (fs ++ gs) i = placeAll fs i ||| placeAll gs i := by
  induction fs with
  | nil => exact (Nat.zero_or _).symm
  | cons f rest ih =>
    rw [List.cons_append, placeAll, List.foldr_cons, ← placeAll, ih, ← Nat.or_assoc]
    rfl

/-- Fields whose slices are all disjoint from `d` place nothing on the bits of `d`. -/
theorem placeAll_disjoint {fs : List (FieldMap × Nat)} {d : Slice} (h : ∀ c ∈ slicesOf fs, c.disjoint d = true)
    {b : Nat} (hb : b < d.width) : (placeAll fs d.word).testBit (d.lo + b) = false := by
  induction fs with
  | nil => exact Nat.zero_testBit _
  | cons f rest ih =>
    have hf : ∀ c ∈ f.1, c.disjoint d = true := fun c hc => h c (List.mem_append_left _ hc)
    have hrest : ∀ c ∈ slicesOf rest, c.disjoint d = true := fun c hc => h c (List.mem_append_right _ hc)
    rw [placeAll, List.foldr_cons, ← placeAll, Nat.testBit_or, FieldMap.place_disjoint f.1 hf _ _ hb, ih hrest,
      Bool.or_self]

/-- From words that pack fields without overlap each legal field reads back its value, if the value fits. -/
theorem value_of_placeAll {fs : List (FieldMap × Nat)} {n w : Nat} {ws : List Word}
    (hno : noOverlap (slicesOf fs) = true) (hws : ∀ i, i < n → ws.getD i 0 = BitVec.ofNat 32 (placeAll fs i))
    {fm : FieldMap} {v : Nat} (hmem : (fm, v) ∈ fs) (hlegal : fm.legal n w = true) (hv : v < 2 ^ fm.width) :
    fm.value ws = v := by
  obtain ⟨before, after, rfl⟩ := List.append_of_mem hmem
  simp only [slicesOf, List.flatMap_append, List.flatMap_cons, noOverlap_append] at hno
  obtain ⟨-, ⟨hfm, -, hafter⟩, hbefore⟩ := hno
  refine FieldMap.value_of_words (fun i => placeAll before i ||| placeAll after i) hlegal hfm hv (fun i hi => ?_)
    fun c hc b hb => ?_
  · rw [hws i hi, placeAll_append, placeAll, placeAll, List.foldr_cons, Nat.or_left_comm]
    rfl
  · have hdisjoint : ∀ d ∈ slicesOf after, d.disjoint c = true := fun d hd => by
      rw [Slice.disjoint_comm]
      exact hafter c hc d hd
    rw [Nat.testBit_or, placeAll_disjoint (fun d hd => hbefore d hd c (List.mem_append_left _ hc)) hb,
      placeAll_disjoint hdisjoint hb, Bool.or_self]

theorem getD_map_range {n i : Nat} (f : Nat → Word) (hi : i < n) : ((List.range n).map f).getD i 0 = f i := by
  rw [List.getD_eq_getElem?_getD, List.getElem?_map, List.getElem?_range hi]
  rfl

/-- A legal field map has at least one bit. -/
theorem width_pos_of_legal {fm : FieldMap} {n w : Nat} (h : fm.legal n w = true) : 0 < fm.width := by
  obtain ⟨hslices, hne, -⟩ := FieldMap.legal_spec h
  obtain ⟨c, rest, rfl⟩ := List.exists_cons_of_ne_nil hne
  obtain ⟨-, hlo, -⟩ := hslices c List.mem_cons_self
  rw [FieldMap.width, Slice.width]
  omega

/-! ### The header -/

/-- The six fields of a header, with the values that encode it. -/
def headerFields (L : HdrLayout) (h : FrameHeader) : List (FieldMap × Nat) :=
  [(L.trig, h.triggerTimestamp), (L.opening, h.shutterOpen), (L.closing, h.shutterClose), (L.fid, h.frameId),
    (L.len, h.length), (L.t0, h.t0Flag.toNat)]

theorem slicesOf_headerFields (L : HdrLayout) (h : FrameHeader) : slicesOf (headerFields L h) = L.slices := by
  simp [slicesOf, headerFields, HdrLayout.slices]

theorem encode_getD (L : HdrLayout) (h : FrameHeader) {i : Nat} (hi : i < 6) :
    (L.encode h).getD i 0 = BitVec.ofNat 32 (placeAll (headerFields L h) i) := by
  rw [HdrLayout.encode, getD_map_range _ hi]
  simp [placeAll, headerFields, Nat.or_assoc]

theorem encode_length (L : HdrLayout) (h : FrameHeader) : (L.encode h).length = 6 := by
  simp [HdrLayout.encode]

/-- The round trip of a header (R99). -/
theorem decode_encode {p : Params} {h : FrameHeader} (hl : p.hdr.lawful = true) (hf : h.fits p = true) :
    p.hdr.decode (p.hdr.encode h) = h := by
  simp only [HdrLayout.lawful, Bool.and_eq_true] at hl
  obtain ⟨⟨⟨⟨⟨⟨htrig, hopen⟩, hclose⟩, hfid⟩, hlen⟩, ht0⟩, hno⟩ := hl
  simp only [FrameHeader.fits, Bool.and_eq_true, decide_eq_true_eq] at hf
  obtain ⟨⟨⟨⟨vtrig, vopen⟩, vclose⟩, vfid⟩, vlen⟩ := hf
  rw [← slicesOf_headerFields p.hdr h] at hno
  have vt0 : h.t0Flag.toNat < 2 ^ p.hdr.t0.width :=
    Nat.lt_of_lt_of_le (Bool.toNat_lt _) (Nat.pow_le_pow_right Nat.two_pos (width_pos_of_legal ht0))
  have hvalue {fm : FieldMap} {v w : Nat} (hmem : (fm, v) ∈ headerFields p.hdr h) (hlegal : fm.legal 6 w = true)
      (hv : v < 2 ^ fm.width) : fm.value (p.hdr.encode h) = v :=
    value_of_placeAll hno (fun i hi => encode_getD p.hdr h hi) hmem hlegal hv
  have hflag : (h.t0Flag.toNat == 1) = h.t0Flag := by cases h.t0Flag <;> rfl
  rw [HdrLayout.decode, hvalue (v := h.triggerTimestamp) (by simp [headerFields]) htrig vtrig,
    hvalue (v := h.shutterOpen) (by simp [headerFields]) hopen vopen,
    hvalue (v := h.shutterClose) (by simp [headerFields]) hclose vclose,
    hvalue (v := h.frameId) (by simp [headerFields]) hfid vfid,
    hvalue (v := h.length) (by simp [headerFields]) hlen vlen,
    hvalue (v := h.t0Flag.toNat) (by simp [headerFields]) ht0 vt0, hflag]

theorem exec_hdr_ok {s : State} (h : 6 ≤ s.port.words.length) :
    exec .hdr s = .next { s with
      latches := { s.latches with header := s.params.hdr.decode (s.port.words.take 6) },
      out := s.out ++ [.response (.ok (.header (s.params.hdr.decode (s.port.words.take 6))))] } := by
  rw [exec, execHdr, State.wordsOperand_eq, runOperation_none (runStages_cons_none (headerStage_ok h s.latches) [])]
  rfl

theorem exec_hdr_error {s : State} (h : s.port.words.length < 6) :
    exec .hdr s = .next { s with
      out := s.out ++ [.response (.error (.headerTruncated s.port.words.length))] } := by
  rw [exec, execHdr, State.wordsOperand_eq, runOperation_some (runStages_cons_some (headerStage_error h s.latches) [])]
  rfl

/-- Settles O12. -/
theorem hdrDecodesTheHeader : Obligations.HdrDecodesTheHeader := by
  unfold Obligations.HdrDecodesTheHeader
  exact ⟨rfl, fun s => ⟨exec_hdr_error, exec_hdr_ok⟩⟩

/-- Settles O13: in the words of a lawful layout's encoding no two fields share a bit, so each reads back its value. -/
theorem headerRoundTrips : Obligations.HeaderRoundTrips := by
  unfold Obligations.HeaderRoundTrips
  intro s h hl hf hwords
  have hlen : s.port.words.length = 6 := by rw [hwords, encode_length]
  have hdecode : s.params.hdr.decode (s.port.words.take 6) = h := by
    rw [List.take_of_length_le hlen.le, hwords, decode_encode hl hf]
  rw [exec_hdr_ok hlen.ge, hdecode]

theorem value_lt_two_pow_64 {fm : FieldMap} {n : Nat} (h : fm.legal n 64 = true) (ws : List Word) :
    fm.value ws < 2 ^ 64 := by
  obtain ⟨-, -, hwidth⟩ := FieldMap.legal_spec h
  exact Nat.lt_of_lt_of_le (fm.value_lt ws) (Nat.pow_le_pow_right Nat.two_pos hwidth)

theorem decode_fits (p : Params) (ws : List Word) : (p.hdr.decode ws).fits p = true := by
  simp only [FrameHeader.fits, Bool.and_eq_true, decide_eq_true_eq]
  exact ⟨⟨⟨⟨FieldMap.value_lt .., FieldMap.value_lt ..⟩, FieldMap.value_lt ..⟩, FieldMap.value_lt ..⟩,
    FieldMap.value_lt ..⟩

/-- Settles O14: a value fits its field map's width, which law 1 of the layout bounds by 64. -/
theorem decodedHeaderFitsItsWidths : Obligations.DecodedHeaderFitsItsWidths := by
  unfold Obligations.DecodedHeaderFitsItsWidths
  refine fun p ws => ⟨decode_fits p ws, fun hl => ?_⟩
  simp only [HdrLayout.lawful, Bool.and_eq_true] at hl
  obtain ⟨⟨⟨⟨⟨⟨htrig, hopen⟩, hclose⟩, hfid⟩, hlen⟩, -⟩, -⟩ := hl
  exact ⟨value_lt_two_pow_64 htrig ws, value_lt_two_pow_64 hopen ws, value_lt_two_pow_64 hclose ws,
    value_lt_two_pow_64 hfid ws, value_lt_two_pow_64 hlen ws⟩

/-! ### Byte blocks -/

theorem assemble_blockOfWords (order : ByteOrder) (words : List Word) :
    assemble order (blockOfWords order words) = words := by
  induction words with
  | nil => rfl
  | cons w rest ih =>
    rw [blockOfWords, List.flatMap_cons, assemble_wordBytes_append, ← blockOfWords, ih]

theorem blockOfWords_length (order : ByteOrder) (words : List Word) :
    (blockOfWords order words).length = 4 * words.length := by
  induction words with
  | nil => rfl
  | cons w rest ih =>
    rw [blockOfWords, List.flatMap_cons, List.length_append, wordBytes_length, ← blockOfWords, ih, List.length_cons]
    ring

/-- Settles O17. -/
theorem blockOfWordsRoundTrips : Obligations.BlockOfWordsRoundTrips := by
  unfold Obligations.BlockOfWordsRoundTrips
  exact fun order words => ⟨assemble_blockOfWords order words, blockOfWords_length order words⟩

/-! ### Payload units -/

/-- The fields of an address source, with the values that encode an address: a positional one has none. -/
def addressFields (a : AddrSource) (addr : PixelAddress) : List (FieldMap × Nat) :=
  match a with
  | .explicit colMap rowMap => [(colMap, addr.col), (rowMap, addr.row)]
  | .positional _ => []

/-- The arrival field, which only mode 0x01 has. -/
def arrivalFields (p : Params) (m : AcqMode) (arrival : Nat) : List (FieldMap × Nat) :=
  match m with
  | .totOnly => []
  | .totToa => [(p.arrivalMap, arrival)]

/-- The fields of a unit, with the values that encode a record. -/
def unitFields (p : Params) (m : AcqMode) (addr : PixelAddress) (tot arrival : Nat) : List (FieldMap × Nat) :=
  addressFields (p.unitLayout m).addr addr ++ ((p.unitLayout m).tot, tot) :: arrivalFields p m arrival

theorem slicesOf_addressFields (a : AddrSource) (addr : PixelAddress) : slicesOf (addressFields a addr) = a.slices := by
  cases a with
  | explicit colMap rowMap => simp [slicesOf, addressFields, AddrSource.slices]
  | positional order => rfl

theorem slicesOf_unitFields (p : Params) (m : AcqMode) (addr : PixelAddress) (tot arrival : Nat) :
    slicesOf (unitFields p m addr tot arrival) = p.unitSlices m := by
  have haddr := slicesOf_addressFields (p.unitLayout m).addr addr
  rw [slicesOf] at haddr
  rw [slicesOf, unitFields, List.flatMap_append, haddr, List.flatMap_cons]
  cases m with
  | totOnly => simp [arrivalFields, Params.unitSlices]
  | totToa => simp [arrivalFields, Params.unitSlices]

theorem placeAll_addressFields (a : AddrSource) (addr : PixelAddress) (i : Nat) :
    placeAll (addressFields a addr) i = a.place addr i := by
  cases a with
  | explicit colMap rowMap => simp [placeAll, addressFields, AddrSource.place]
  | positional order => rfl

theorem encodeUnit_getD (p : Params) (m : AcqMode) (addr : PixelAddress) (tot arrival : Nat) {i : Nat}
    (hi : i < p.unitWords m) : (p.encodeUnit m addr tot arrival).getD i 0 =
      BitVec.ofNat 32 (placeAll (unitFields p m addr tot arrival) i) := by
  rw [Params.encodeUnit, getD_map_range _ hi, unitFields, placeAll_append, placeAll_addressFields]
  cases m with
  | totOnly => simp [placeAll, arrivalFields]
  | totToa => simp [placeAll, arrivalFields, Nat.or_assoc]

theorem encodeUnit_length (p : Params) (m : AcqMode) (addr : PixelAddress) (tot arrival : Nat) :
    (p.encodeUnit m addr tot arrival).length = p.unitWords m := by
  simp [Params.encodeUnit]

/-- What `P_PIX_LAYOUT[m]` must meet, by its parts (R103, R104). -/
theorem unitLawful_spec {p : Params} {m : AcqMode} (h : p.unitLawful m = true) :
    1 ≤ p.unitWords m ∧ (p.unitLayout m).addr.legal (p.unitWords m) = true ∧
      (p.unitLayout m).tot.legal (p.unitWords m) 32 = true ∧
      (m = .totToa → p.arrivalMap.legal (p.unitWords m) 64 = true) ∧ noOverlap (p.unitSlices m) = true := by
  simp only [Params.unitLawful, Bool.and_eq_true, decide_eq_true_eq] at h
  obtain ⟨⟨⟨⟨hwords, haddr⟩, htot⟩, harrival⟩, hno⟩ := h
  exact ⟨hwords, haddr, htot, fun hm => by subst hm; exact harrival, hno⟩

theorem lawful_unit {p : Params} (h : p.lawful = true) (m : AcqMode) : p.unitLawful m = true := by
  simp only [Params.lawful, Bool.and_eq_true] at h
  obtain ⟨⟨⟨-, htot⟩, htoa⟩, -⟩ := h
  cases m with
  | totOnly => exact htot
  | totToa => exact htoa

theorem lawful_hdr {p : Params} (h : p.lawful = true) : p.hdr.lawful = true := by
  simp only [Params.lawful, Bool.and_eq_true] at h
  obtain ⟨⟨⟨hhdr, -⟩, -⟩, -⟩ := h
  exact hhdr

/-- What it takes for a record to fit, by its parts, in either mode. -/
theorem record_fits_spec {p : Params} {m : AcqMode} {addr : PixelAddress} {tot arrival : Nat}
    (h : (m.record addr tot arrival).fits p = true) :
    addr.valid = true ∧ tot < 2 ^ (p.unitLayout m).tot.width ∧
      (m = .totToa → arrival < 2 ^ p.arrivalMap.width) := by
  cases m with
  | totOnly =>
    simp only [AcqMode.record, PixelRecord.fits, Bool.and_eq_true, decide_eq_true_eq] at h
    exact ⟨h.1, h.2, nofun⟩
  | totToa =>
    simp only [AcqMode.record, PixelRecord.fits, Bool.and_eq_true, decide_eq_true_eq] at h
    obtain ⟨⟨haddr, htot⟩, harrival⟩ := h
    exact ⟨haddr, htot, fun _ => harrival⟩

/-- The round trip of a unit: what its place in the payload and its words say is the record that was encoded. -/
theorem decodeUnit_encodeUnit {p : Params} {m : AcqMode} {k : Nat} {addr : PixelAddress} {tot arrival : Nat}
    (hl : p.unitLawful m = true) (hs : (p.unitLayout m).addr.stores k addr = true)
    (hf : (m.record addr tot arrival).fits p = true) :
    p.decodeUnit m k (p.encodeUnit m addr tot arrival) = m.record addr tot arrival := by
  obtain ⟨-, laddr, ltot, larrival, hno⟩ := unitLawful_spec hl
  obtain ⟨-, vtot, varrival⟩ := record_fits_spec hf
  rw [← slicesOf_unitFields p m addr tot arrival] at hno
  have hvalue {fm : FieldMap} {v w : Nat} (hmem : (fm, v) ∈ unitFields p m addr tot arrival)
      (hlegal : fm.legal (p.unitWords m) w = true) (hv : v < 2 ^ fm.width) :
      fm.value (p.encodeUnit m addr tot arrival) = v :=
    value_of_placeAll hno (fun i hi => encodeUnit_getD p m addr tot arrival hi) hmem hlegal hv
  have htot : (p.unitLayout m).tot.value (p.encodeUnit m addr tot arrival) = tot :=
    hvalue (by simp [unitFields]) ltot vtot
  have haddr : (p.unitLayout m).addr.address k (p.encodeUnit m addr tot arrival) = addr := by
    cases ha : (p.unitLayout m).addr with
    | explicit colMap rowMap =>
      rw [ha] at laddr hs
      simp only [AddrSource.legal, Bool.and_eq_true] at laddr
      simp only [AddrSource.stores, Bool.and_eq_true, decide_eq_true_eq] at hs
      rw [AddrSource.address, hvalue (v := addr.col) (by simp [unitFields, ha, addressFields]) laddr.1 hs.1,
        hvalue (v := addr.row) (by simp [unitFields, ha, addressFields]) laddr.2 hs.2]
    | positional order =>
      rw [ha] at hs
      cases order <;> exact eq_of_beq hs
  cases m with
  | totOnly => exact (PixelRecord.tot.injEq ..).mpr ⟨haddr, htot⟩
  | totToa =>
    have harrival : p.arrivalMap.value (p.encodeUnit .totToa addr tot arrival) = arrival :=
      hvalue (by simp [unitFields, arrivalFields]) (larrival rfl) (varrival rfl)
    exact (PixelRecord.toa.injEq ..).mpr ⟨haddr, htot, harrival⟩

end Sys2Proof.Proofs
end

-- ==== The pixel record unpacker (42_frame.md) ====
section
namespace Sys2Proof.Proofs
open Sys2Proof.Machine

/-! ### The three ends of FRAME -/

section Frame
variable {m : AcqMode} {s : State}

theorem exec_frame_lengthError (h : s.port.payload.length % s.params.unitWords m ≠ 0) :
    exec (frameOf m) s = .next { s with
      out := s.out ++ [.response (.error (.payloadLength s.port.payload.length (s.params.unitWords m) m.byte))] } := by
  rw [exec_frameOf, runOperation_some (runStages_cons_some (unpackStage_length_error s.latches h) [])]
  rfl

theorem exec_frame_addressError {k : Nat} (hlen : s.port.payload.length % s.params.unitWords m = 0)
    (hk : k < s.port.payload.length / s.params.unitWords m)
    (hbefore : ∀ j, j < k → (rawUnit s.params m s.port.payload j).addr.col < 64 ∧
      (rawUnit s.params m s.port.payload j).addr.row < 16)
    (hbad : ¬((rawUnit s.params m s.port.payload k).addr.col < 64 ∧
      (rawUnit s.params m s.port.payload k).addr.row < 16)) :
    ∃ l, exec (frameOf m) s = .next { s with
      latches := l
      out := s.out ++ [.response (.error (.addressRange k (rawUnit s.params m s.port.payload k).addr.col
        (rawUnit s.params m s.port.payload k).addr.row))] } := by
  obtain ⟨l, hl⟩ := unpackStage_address_error s.latches hlen hk
    (fun j hj => (PixelAddress.valid_iff _).2 (hbefore j hj))
    (Bool.eq_false_iff.2 fun h => hbad ((PixelAddress.valid_iff _).1 h))
  rw [exec_frameOf, runOperation_some (runStages_cons_some hl [])]
  exact ⟨l, rfl⟩

theorem exec_frame_ok (hlen : s.port.payload.length % s.params.unitWords m = 0)
    (hvalid : ∀ j, j < s.port.payload.length / s.params.unitWords m →
      (rawUnit s.params m s.port.payload j).addr.col < 64 ∧ (rawUnit s.params m s.port.payload j).addr.row < 16) :
    exec (frameOf m) s = .next { s with
      latches := { s.latches with
        cursor := s.port.payload.length / s.params.unitWords m, recs := unitRecords s.params m s.port.payload }
      out := s.out ++ [.response (.ok (.records (unitRecords s.params m s.port.payload)))] } := by
  rw [exec_frameOf, runOperation_none (runStages_cons_none
    (unpackStage_ok s.latches hlen fun j hj => (PixelAddress.valid_iff _).2 (hvalid j hj)) [])]
  rfl

end Frame

/-- Settles O18: FRAME of mode 0x00, its units read by the layout of that mode. -/
theorem frameTotUnpacks : Obligations.FrameTotUnpacks := by
  unfold Obligations.FrameTotUnpacks
  exact ⟨rfl, fun s => ⟨exec_frame_lengthError (m := .totOnly), fun k => exec_frame_addressError (m := .totOnly),
    exec_frame_ok (m := .totOnly)⟩⟩

/-- Settles O19: FRAME of mode 0x01, its units read by the layout of that mode. -/
theorem frameToaUnpacks : Obligations.FrameToaUnpacks := by
  unfold Obligations.FrameToaUnpacks
  exact ⟨rfl, fun s => ⟨exec_frame_lengthError (m := .totToa), fun k => exec_frame_addressError (m := .totToa),
    exec_frame_ok (m := .totToa)⟩⟩

/-! ### Addresses -/

/-- The reference column has 6 bits and the reference row 4. -/
theorem reference_address_inRange (k : Nat) (u : List Word) :
    (UnitLayout.reference.addr.address k u).col < 64 ∧ (UnitLayout.reference.addr.address k u).row < 16 :=
  ⟨FieldMap.value_lt (oneSlice 0 5 0) u, FieldMap.value_lt (oneSlice 0 9 6) u⟩

theorem exec_frame_of_reference {m : AcqMode} {s : State} (href : s.params.unitLayout m = UnitLayout.reference)
    (hlen : s.port.payload.length % s.params.unitWords m = 0) :
    ∃ (l : Latches) (recs : List PixelRecord), recs.length = s.port.payload.length / s.params.unitWords m ∧
      exec (frameOf m) s = .next { s with latches := l, out := s.out ++ [.response (.ok (.records recs))] } := by
  refine ⟨_, _, unitRecords_length _ _ _, exec_frame_ok hlen fun j _ => ?_⟩
  rw [rawUnit_addr, href]
  exact reference_address_inRange _ _

/-- Settles O20: no address of a reference unit is out of range, so only the payload length can fail. -/
theorem referenceUnitsNeverOutOfRange : Obligations.ReferenceUnitsNeverOutOfRange := by
  unfold Obligations.ReferenceUnitsNeverOutOfRange
  intro s htot htoa htotWords htoaWords
  have htotWords : s.params.unitWords .totOnly = 1 := htotWords
  have htoaWords : s.params.unitWords .totToa = 2 := htoaWords
  refine ⟨?_, fun heven => ?_⟩
  · obtain ⟨l, recs, hrecs, hexec⟩ := exec_frame_of_reference (m := .totOnly) htot (by rw [htotWords, Nat.mod_one])
    exact ⟨l, recs, by rw [hrecs, htotWords, Nat.div_one], hexec⟩
  · obtain ⟨l, recs, hrecs, hexec⟩ := exec_frame_of_reference (m := .totToa) htoa (by rw [htoaWords, heven])
    exact ⟨l, recs, by rw [hrecs, htoaWords], hexec⟩

/-- Settles O21: a unit's place is the quotient and the remainder that its address is made of, in either order. -/
theorem positionalAddressesCoverTheMatrix : Obligations.PositionalAddressesCoverTheMatrix := by
  unfold Obligations.PositionalAddressesCoverTheMatrix
  intro order k u
  cases order with
  | colFastest =>
    simp only [AddrSource.address, Config.cols, PixelAddress.mk.injEq]
    exact ⟨by omega, fun j _ h => by omega⟩
  | rowFastest =>
    simp only [AddrSource.address, Config.rows, PixelAddress.mk.injEq]
    exact ⟨by omega, fun j _ h => by omega⟩

/-! ### Payloads made of encoded units -/

/-- The payload made of the units of pixels: address, magnitude and arrival of each. -/
def encodePixels (p : Params) (m : AcqMode) (px : List (PixelAddress × Nat × Nat)) : List Word :=
  px.flatMap fun x => p.encodeUnit m x.1 x.2.1 x.2.2

/-- Pixels whose values fit the layout and whose addresses it can say at their places. -/
def Encodable (p : Params) (m : AcqMode) (px : List (PixelAddress × Nat × Nat)) : Prop :=
  ∀ k x, px[k]? = some x →
    (m.record x.1 x.2.1 x.2.2).fits p = true ∧ (p.unitLayout m).addr.stores k x.1 = true

section Encoded
variable {p : Params} {m : AcqMode} {px : List (PixelAddress × Nat × Nat)}

theorem encodePixels_length : (encodePixels p m px).length = px.length * p.unitWords m :=
  flatMap_length px _ _ fun x => encodeUnit_length p m x.1 x.2.1 x.2.2

theorem encodePixels_whole : (encodePixels p m px).length % p.unitWords m = 0 := by
  rw [encodePixels_length, Nat.mul_mod_left]

theorem encodePixels_units (hl : p.unitLawful m = true) :
    (encodePixels p m px).length / p.unitWords m = px.length := by
  obtain ⟨hwords, -⟩ := unitLawful_spec hl
  rw [encodePixels_length, Nat.mul_div_cancel _ hwords]

theorem rawUnit_encodePixels (hl : p.unitLawful m = true) (hpx : Encodable p m px) {k : Nat} (hk : k < px.length) :
    rawUnit p m (encodePixels p m px) k = m.record px[k].1 px[k].2.1 px[k].2.2 := by
  obtain ⟨hfits, hstores⟩ := hpx k px[k] (List.getElem?_eq_getElem hk)
  rw [rawUnit, encodePixels, memRead_flatMap px _ _ (fun x => encodeUnit_length p m x.1 x.2.1 x.2.2) k hk]
  exact decodeUnit_encodeUnit hl hstores hfits

theorem encodePixels_valid (hl : p.unitLawful m = true) (hpx : Encodable p m px) {k : Nat} (hk : k < px.length) :
    (rawUnit p m (encodePixels p m px) k).addr.valid = true := by
  obtain ⟨hfits, -⟩ := hpx k px[k] (List.getElem?_eq_getElem hk)
  rw [rawUnit_encodePixels hl hpx hk, AcqMode.record_addr]
  exact (record_fits_spec hfits).1

theorem unitRecords_encodePixels (hl : p.unitLawful m = true) (hpx : Encodable p m px) :
    unitRecords p m (encodePixels p m px) = px.map fun x => m.record x.1 x.2.1 x.2.2 := by
  rw [unitRecords, encodePixels_units hl]
  refine List.ext_getElem (by simp) fun k hk _ => ?_
  simp only [List.length_map, List.length_range] at hk
  simp only [List.getElem_map, List.getElem_range]
  exact rawUnit_encodePixels hl hpx hk

end Encoded

/-- FRAME of encoded pixels returns exactly their records. -/
theorem exec_frame_encodePixels {s : State} {m : AcqMode} {px : List (PixelAddress × Nat × Nat)}
    (hl : s.params.unitLawful m = true) (hpx : Encodable s.params m px)
    (hpayload : s.port.payload = encodePixels s.params m px) :
    ∃ l, exec (frameOf m) s = .next { s with
      latches := l, out := s.out ++ [.response (.ok (.records (px.map fun x => m.record x.1 x.2.1 x.2.2)))] } := by
  rw [← unitRecords_encodePixels hl hpx, ← hpayload]
  refine ⟨_, exec_frame_ok (by rw [hpayload, encodePixels_whole]) fun j hj => ?_⟩
  rw [hpayload, encodePixels_units hl] at hj
  rw [hpayload]
  exact (PixelAddress.valid_iff _).1 (encodePixels_valid hl hpx hj)

/-- An explicit address is stored at any place. -/
theorem encodable_of_explicit {p : Params} {m : AcqMode} {px : List (PixelAddress × Nat × Nat)}
    {c r : FieldMap} (ha : (p.unitLayout m).addr = .explicit c r)
    (hpx : ∀ x ∈ px, (m.record x.1 x.2.1 x.2.2).fits p = true ∧ x.1.col < 2 ^ c.width ∧ x.1.row < 2 ^ r.width) :
    Encodable p m px := by
  intro k x hx
  obtain ⟨hfits, hcol, hrow⟩ := hpx x (List.mem_of_getElem? hx)
  refine ⟨hfits, ?_⟩
  rw [ha, AddrSource.stores, decide_eq_true hcol, decide_eq_true hrow, Bool.and_self]

/-- Settles O22: every unit of a lawful layout decodes to the record that was encoded, so FRAME meets no address out of
range and returns them all. -/
theorem frameRoundTrips : Obligations.FrameRoundTrips := by
  unfold Obligations.FrameRoundTrips
  refine fun s px hl => ⟨?_, ?_⟩
  · rintro ⟨c, r, ha⟩ hpx hpayload
    refine exec_frame_encodePixels (m := .totOnly) (lawful_unit hl .totOnly)
      (encodable_of_explicit ha fun x hx => ?_) hpayload
    exact ⟨(hpx x hx).1, (hpx x hx).2 c r ha⟩
  · rintro ⟨c, r, ha⟩ hpx hpayload
    refine exec_frame_encodePixels (m := .totToa) (lawful_unit hl .totToa)
      (encodable_of_explicit ha fun x hx => ?_) hpayload
    exact ⟨(hpx x hx).1, (hpx x hx).2 c r ha⟩

end Sys2Proof.Proofs
end

-- ==== Frame times (43_acceptance_timestamps.md) ====
section
namespace Sys2Proof.Proofs
open Sys2Proof.Machine

section TsFrame
variable {s : State} {a b : Picos} {e : HardError}

theorem exec_tsFrame_ok (ha : toPs s.params.tsOverflow s.port.h.shutterOpen = .ok a)
    (hb : toPs s.params.tsOverflow s.port.h.shutterClose = .ok b) :
    exec .tsFrame s = .next { s with
      latches := { s.latches with frameStartPs := a, frameEndPs := b },
      out := s.out ++ [.response (.ok (.frameTimes a b))] } := by
  rw [exec, execTsFrame, State.headerOperand_eq,
    runOperation_none (runStages_cons_none (timeStage_ok ha hb s.latches) [])]
  rfl

theorem exec_tsFrame_stops {l : Latches} (h : timeStage s.params s.port.h s.latches = (l, some (.hard e))) :
    exec .tsFrame s = .next { s with latches := l, out := s.out ++ [.response (.error e)] } := by
  rw [exec, execTsFrame, State.headerOperand_eq, runOperation_some (runStages_cons_some h [])]
  rfl

/-- The open counter is converted first. -/
theorem exec_tsFrame_openError (ha : toPs s.params.tsOverflow s.port.h.shutterOpen = .error e) :
    ∃ l, exec .tsFrame s = .next { s with latches := l, out := s.out ++ [.response (.error e)] } :=
  ⟨_, exec_tsFrame_stops (by rw [timeStage, ha])⟩

theorem exec_tsFrame_closeError (ha : toPs s.params.tsOverflow s.port.h.shutterOpen = .ok a)
    (hb : toPs s.params.tsOverflow s.port.h.shutterClose = .error e) :
    ∃ l, exec .tsFrame s = .next { s with latches := l, out := s.out ++ [.response (.error e)] } :=
  ⟨_, exec_tsFrame_stops (by rw [timeStage, ha]; simp only [hb]; rfl)⟩

end TsFrame

/-- Settles O24: each counter is converted in turn, and only `fault` has a range. -/
theorem tsFrameConvertsTicks : Obligations.TsFrameConvertsTicks := by
  unfold Obligations.TsFrameConvertsTicks
  refine ⟨rfl, fun s => ⟨fun hp hopen => ?_, fun hp hopen hclose => ?_, fun hrange => ?_⟩⟩
  · exact exec_tsFrame_openError (by rw [hp, toPs_error hopen])
  · exact exec_tsFrame_closeError (toPs_ok fun _ => hopen) (by rw [hp, toPs_error hclose])
  · have hinRange : s.params.tsOverflow = .fault →
        s.port.h.shutterOpen * 10000 < 2 ^ 64 ∧ s.port.h.shutterClose * 10000 < 2 ^ 64 := fun hp => by
      rcases hrange with hwrap | hboth
      · cases hp.symm.trans hwrap
      · exact hboth
    exact ⟨_, _, BitVec.toNat_ofNat .., BitVec.toNat_ofNat ..,
      exec_tsFrame_ok (toPs_ok fun hp => (hinRange hp).1) (toPs_ok fun hp => (hinRange hp).2)⟩

/-- A counter of at most 50 bits stays below 2^64 picoseconds. -/
theorem narrow_ticks_inRange {tick w : Nat} (h : tick < 2 ^ w) (hw : w ≤ 50) : tick * 10000 < 2 ^ 64 := by
  have hpow : 2 ^ w ≤ 2 ^ 50 := Nat.pow_le_pow_right Nat.two_pos hw
  omega

/-- A product in range is the picosecond value itself. -/
theorem ofNat_ticks_toNat {tick : Nat} (h : tick * 10000 < 2 ^ 64) :
    (BitVec.ofNat 64 (tick * 10000)).toNat = tick * 10000 := by
  rw [BitVec.toNat_ofNat, Nat.mod_eq_of_lt h]

/-- Settles O25: 2^50 * 10000 is below 2^64. -/
theorem narrowCountersNeverOverflow : Obligations.NarrowCountersNeverOverflow := by
  unfold Obligations.NarrowCountersNeverOverflow
  intro s hfits hopenWidth hcloseWidth
  simp only [FrameHeader.fits, Bool.and_eq_true, decide_eq_true_eq] at hfits
  obtain ⟨⟨⟨⟨-, hopen⟩, hclose⟩, -⟩, -⟩ := hfits
  have hopen := narrow_ticks_inRange hopen hopenWidth
  have hclose := narrow_ticks_inRange hclose hcloseWidth
  exact ⟨_, _, _, ofNat_ticks_toNat hopen, ofNat_ticks_toNat hclose,
    exec_tsFrame_ok (toPs_ok fun _ => hopen) (toPs_ok fun _ => hclose)⟩

/-- Settles O27: the sum of two products is even. -/
theorem frameTimesHaveExactMidpoint : Obligations.FrameTimesHaveExactMidpoint := by
  unfold Obligations.FrameTimesHaveExactMidpoint
  intro s a b hp hstart hend
  refine ⟨_, ?_, exec_tsHitTot⟩
  rw [hp, midpoint_fault_toNat, hstart, hend]
  omega

/-- A time that TS_HIT.TOA answers under `fault` is the end time minus the arrival. -/
theorem tsHitToa_time {s t : State} {x : Picos} (hp : s.params.tsOverflow = .fault)
    (h : exec .tsHitToa s = .next t) (ho : t.out = s.out ++ [.response (.ok (.timestamp x))]) :
    x.toNat + s.port.arrival * 10000 = s.port.endPs.toNat := by
  rcases tsHitToa_responds h ho with ⟨y, hy, heq⟩ | ⟨e, -, heq⟩
  · cases heq
    rw [hp] at hy
    exact hitFromEnd_fault_eq_ok hy
  · cases heq

/-- Settles O29. -/
theorem toaTimesStrictlyDecrease : Obligations.ToaTimesStrictlyDecrease := by
  unfold Obligations.ToaTimesStrictlyDecrease
  intro s s' t t' x x' hp hp' hend harrival h ho h' ho'
  have htime := tsHitToa_time hp h ho
  have htime' := tsHitToa_time hp' h' ho'
  rw [← hend] at htime'
  omega

end Sys2Proof.Proofs
end

-- ==== Outputs and the invariant (60_exceptions.md, 70_reset_and_hazards.md) ====
section
namespace Sys2Proof.Proofs
open Sys2Proof.Machine

/-! ### Responses and diagnostic records -/

theorem responses_of_out {s t : State} {new : List Output} (h : t.out = s.out ++ new) :
    t.responses = s.responses ++ ({ s with out := new } : State).responses := by
  rw [State.responses, h, List.filterMap_append]
  rfl

theorem diagnostics_of_out {s t : State} {new : List Output} (h : t.out = s.out ++ new) :
    t.diagnostics = s.diagnostics ++ ({ s with out := new } : State).diagnostics := by
  rw [State.diagnostics, h, List.filterMap_append]
  rfl

/-- Settles O48, by the four ways an operation ends: a skip's outputs are its record and its response, and the other
three send no record. -/
theorem diagnosticRecordsReportSkips : Obligations.DiagnosticRecordsReportSkips := by
  unfold Obligations.DiagnosticRecordsReportSkips
  intro i s t h
  obtain ⟨-, -, -, new, hnew, hout⟩ := answers_of_ends (exec_ends h)
  rw [responses_of_out hout, diagnostics_of_out hout, hout]
  cases hnew with
  | ok r plain => exact ⟨.ok r, rfl, rfl, nofun⟩
  | hard e => exact ⟨.error e, rfl, rfl, nofun⟩
  | converted ev => exact ⟨.ok .converted, rfl, rfl, nofun⟩
  | skip k => exact ⟨.skip k, rfl, by cases k <;> rfl, fun _ _ => ⟨k.diagnostic, rfl⟩⟩

/-! ### Hard errors as faults (R165) -/

theorem strictStep_fault {s t : State} {new : List Output} {e : HardError} (h : step s = .next t)
    (hout : t.out = s.out ++ new) (he : new.findSome? hardErrorOf = some e) :
    strictStep s = .fault (.hardError e) := by
  simp only [strictStep, h, hout, List.drop_left, he]

theorem strictStep_next {s t : State} {new : List Output} (h : step s = .next t)
    (hout : t.out = s.out ++ new) (he : new.findSome? hardErrorOf = none) : strictStep s = .next t := by
  simp only [strictStep, h, hout, List.drop_left, he]

/-- What a step sends: nothing while it waits, and otherwise the outputs of one operation. -/
theorem step_sends {s t : State} (h : step s = .next t) :
    ∃ new, (new = [] ∨ OperationOutputs new) ∧ t.out = s.out ++ new := by
  rcases hp : s.pending with _ | ⟨r, rest⟩
  · cases h.symm.trans (step_of_idle hp)
    exact ⟨[], .inl rfl, (List.append_nil _).symm⟩
  · obtain ⟨-, -, -, new, hnew, hout⟩ := step_answers hp h
    exact ⟨new, .inr hnew, hout⟩

/-- A step sends a hard error, alone, or nothing that reports one. -/
theorem step_sends_hardError {s t : State} (h : step s = .next t) :
    (∃ e, t.out = s.out ++ [.response (.error e)]) ∨
      ∃ new, t.out = s.out ++ new ∧ (∀ o ∈ new, hardErrorOf o = none) := by
  obtain ⟨new, rfl | hnew, hout⟩ := step_sends h
  · exact .inr ⟨[], hout, by simp⟩
  · cases hnew with
    | hard e => exact .inl ⟨e, hout⟩
    | ok r plain => exact .inr ⟨_, hout, by simp [hardErrorOf]⟩
    | skip k => exact .inr ⟨_, hout, by simp [hardErrorOf]⟩
    | converted ev => exact .inr ⟨_, hout, by simp [hardErrorOf]⟩

/-- Settles O57: a step whose operation sends a hard error sends nothing else, and any other step sends none. -/
theorem strictStepFaultsOnHardErrors : Obligations.StrictStepFaultsOnHardErrors := by
  unfold Obligations.StrictStepFaultsOnHardErrors
  intro s t h
  rcases step_sends_hardError h with ⟨e, hout⟩ | ⟨new, hout, hnone⟩
  · have hstrict := strictStep_fault h hout (e := e) rfl
    rw [hstrict, hout]
    refine ⟨fun e' => ?_, ?_, nofun⟩
    · simp
    · simp
  · have hstrict := strictStep_next h hout (List.findSome?_eq_none_iff.2 hnone)
    have hne : ∀ e, t.out ≠ s.out ++ [.response (.error e)] := fun e he => by
      rw [hout, List.append_cancel_left_eq] at he
      have := hnone (.response (.error e)) (by simp [he])
      cases this
    rw [hstrict]
    refine ⟨fun e => ⟨nofun, fun he => absurd he (hne e)⟩, ⟨fun _ => hne, fun _ => rfl⟩, fun hs _ => ?_⟩
    rw [State.noHardError, hout, List.all_append, ← State.noHardError, hs, Bool.true_and, List.all_eq_true]
    exact fun o ho => by rw [hnone o ho]; rfl

/-! ### The invariant -/

theorem wellBracketed_append {out new : List Output} (h : wellBracketed out = true) :
    wellBracketed (out ++ new) = wellBracketed new := by
  fun_induction wellBracketed out with
  | case1 => rfl
  | case2 ev rest ih => exact ih h
  | case3 d rest k ih =>
    obtain ⟨hd, hrest⟩ := Bool.and_eq_true_iff.1 h
    rw [List.cons_append, List.cons_append, wellBracketed, hd, Bool.true_and]
    exact ih hrest
  | case4 rest r ih =>
    obtain ⟨hr, hrest⟩ := Bool.and_eq_true_iff.1 h
    rw [List.cons_append, wellBracketed, hr, Bool.true_and]
    exact ih hrest
  | case5 rest e ih => exact ih h
  | case6 => cases h

theorem OperationOutputs.wellBracketed {new : List Output} (h : OperationOutputs new) :
    wellBracketed new = true := by
  cases h with
  | ok r plain => simp [Machine.wellBracketed, plain]
  | hard e => rfl
  | skip k => simp [Machine.wellBracketed]
  | converted ev => rfl

/-- CONVERT returns no records. -/
theorem convert_returns_no_records {s t : State} {recs : List PixelRecord} (h : exec .convert s = .next t) :
    t.out ≠ s.out ++ [.response (.ok (.records recs))] := by
  intro ho
  rcases execConvert_cases s with ⟨k, -, hk⟩ | ⟨words, x, l, -, -, hx⟩ | ⟨words, L, -, -, hev⟩
  · cases h.symm.trans hk
    simp at ho
  · cases h.symm.trans hx
    cases x <;> simp [stopOutputs] at ho
  · cases h.symm.trans hev
    simp at ho

theorem recArrival_returns_no_records {s t : State} {recs : List PixelRecord} (h : exec .recArrival s = .next t) :
    t.out ≠ s.out ++ [.response (.ok (.records recs))] := by
  intro ho
  cases hr : s.port.r with
  | tot addr v => cases h.symm.trans (exec_recArrival_tot hr); cases response_of_out ho
  | toa addr v a => cases h.symm.trans (exec_recArrival_toa hr); cases response_of_out ho

/-- Every record that an operation returns is at a valid address, if those of FILTER's operand are (R28, R106): FRAME
and FILTER are the operations that return any. -/
theorem records_valid {i : Instr} {s t : State} {recs : List PixelRecord} (h : exec i s = .next t)
    (hport : ∀ r ∈ s.port.recs, r.addr.valid = true) (ho : t.out = s.out ++ [.response (.ok (.records recs))]) :
    ∀ r ∈ recs, r.addr.valid = true := by
  have hframe (m : AcqMode) (h : exec (frameOf m) s = .next t) : ∀ r ∈ recs, r.addr.valid = true := by
    rcases frame_responds h ho with ⟨-, hvalid, heq⟩ | ⟨e, heq, -⟩
    · cases heq
      intro r hr
      obtain ⟨k, hk, rfl⟩ := List.mem_map.1 hr
      exact hvalid k (List.mem_range.1 hk)
    · cases heq
  cases i with
  | frameTot => exact hframe .totOnly h
  | frameToa => exact hframe .totToa h
  | filter =>
    cases h.symm.trans exec_filter
    cases response_of_out ho
    exact fun r hr => hport r (mem_suppressZero.1 hr).1
  | hdr => rcases hdr_responds h ho with ⟨-, heq⟩ | ⟨e, heq⟩ <;> cases heq
  | tsFrame => rcases tsFrame_responds h ho with ⟨a, b, -, -, heq⟩ | ⟨e, heq, -⟩ <;> cases heq
  | tsHitToa => rcases tsHitToa_responds h ho with ⟨x, -, heq⟩ | ⟨e, -, heq⟩ <;> cases heq
  | convert => exact absurd ho (convert_returns_no_records h)
  | recArrival => exact absurd ho (recArrival_returns_no_records h)
  | _ => cases h; cases response_of_out ho

/-- Under `fault` no hit is after the frame's end. -/
theorem hitTime_le_end {a b t : Picos} {r : PixelRecord} (hab : a.toNat ≤ b.toNat)
    (h : hitTime .fault a b r = .ok t) : t.toNat ≤ b.toNat := by
  cases r with
  | tot addr v =>
    cases h
    rw [midpoint_fault_toNat]
    omega
  | toa addr v arrival =>
    have htime := hitFromEnd_fault_eq_ok h
    omega

/-- Under `fault` the frame times of a converted frame are the exact products, in order. -/
theorem times_le_of_converts {p : Params} {mode : ModeByte} {words : List Word} {L : Latches}
    (h : Converts p mode words L) (hp : p.tsOverflow = .fault) : L.frameStartPs.toNat ≤ L.frameEndPs.toNat := by
  obtain ⟨-, hshutter⟩ := (acceptance_eq_accepted _).1 h.accepted
  rw [(toPs_eq_ok h.startTime).2 hp, (toPs_eq_ok h.endTime).2 hp]
  exact Nat.mul_le_mul_right _ hshutter

theorem eventSound_of_converts {p : Params} {mode : ModeByte} {words : List Word} {L : Latches}
    (h : Converts p mode words L) (planeId : BitVec 32) (tags : List Tag) :
    eventSound p.tsOverflow (outEvent p planeId tags L) = true := by
  obtain ⟨m, -, hhits⟩ := h.hits_spec
  have hmagnitude : L.hits.all (fun hit => hit.tot != 0) = true :=
    List.all_eq_true.2 fun hit hh => bne_iff_ne.2 (hhits hit hh).1
  simp only [eventSound, Bool.and_eq_true]
  refine ⟨⟨⟨rfl, rfl⟩, hmagnitude⟩, ?_⟩
  cases hp : p.tsOverflow with
  | wrap64 => rfl
  | fault =>
    have hle := times_le_of_converts h hp
    refine Bool.and_eq_true_iff.2 ⟨decide_eq_true hle, List.all_eq_true.2 fun hit hh => decide_eq_true ?_⟩
    obtain ⟨-, r, -, hr⟩ := hhits hit hh
    rw [hp] at hr
    exact hitTime_le_end hle hr

/-- What an operation sends is sound, in each of the four ways it ends. -/
theorem exec_outputs_sound {i : Instr} {s t : State} {new : List Output} (h : exec i s = .next t)
    (hport : ∀ r ∈ s.port.recs, r.addr.valid = true) (hout : t.out = s.out ++ new) :
    ∀ o ∈ new, outputSound s.params.tsOverflow o = true := by
  cases exec_ends h with
  | ok r l planeId acqMode state =>
    subst state
    cases List.append_cancel_left hout
    refine List.forall_mem_singleton.2 ?_
    cases r with
    | records recs => exact List.all_eq_true.2 (records_valid h hport rfl)
    | _ => rfl
  | hard e l state =>
    subst state
    cases List.append_cancel_left hout
    exact List.forall_mem_singleton.2 rfl
  | skip k l instr state =>
    subst state
    cases List.append_cancel_left hout
    exact List.forall_mem_cons.2 ⟨rfl, List.forall_mem_singleton.2 rfl⟩
  | converted words l instr shape converts state =>
    subst state
    cases List.append_cancel_left hout
    exact List.forall_mem_cons.2 ⟨eventSound_of_converts converts _ _, List.forall_mem_singleton.2 rfl⟩

theorem step_outputs_sound {s t : State} {r : Request} {rest : List Request} {new : List Output}
    (hp : s.pending = r :: rest) (h : step s = .next t) (hrecs : ∀ x ∈ r.operands.recs, x.addr.valid = true)
    (hout : t.out = s.out ++ new) : ∀ o ∈ new, outputSound s.params.tsOverflow o = true := by
  rcases hd : decodeWord r.cmd with e | i
  · cases h.symm.trans (step_of_rejected hp hd)
    cases List.append_cancel_left hout
    exact List.forall_mem_singleton.2 rfl
  · exact exec_outputs_sound (s := (s.beginOperation rest).loadPort r.operands)
      ((step_of_decoded hp hd).symm.trans h) hrecs hout

theorem invariant_iff (s : State) : s.invariant = true ↔
    s.params.lawful = true ∧ (∀ r ∈ s.pending, ∀ x ∈ r.operands.recs, x.addr.valid = true) ∧
      wellBracketed s.out = true ∧ ∀ o ∈ s.out, outputSound s.params.tsOverflow o = true := by
  simp only [State.invariant, Bool.and_eq_true, List.all_eq_true, and_assoc]

/-- Settles O55: the parameters stay, the requests left were pending before, and what the step sends is the sound
outputs of one whole operation. -/
theorem stepKeepsTheInvariant : Obligations.StepKeepsTheInvariant := by
  unfold Obligations.StepKeepsTheInvariant
  intro s t hs h
  rcases hp : s.pending with _ | ⟨r, rest⟩
  · cases h.symm.trans (step_of_idle hp)
    exact hs
  obtain ⟨hlawful, hpending, hbracketed, hsound⟩ := (invariant_iff s).1 hs
  rw [hp] at hpending
  obtain ⟨hrecs, hrest⟩ := List.forall_mem_cons.1 hpending
  obtain ⟨hparams, hleft, -, new, hnew, hout⟩ := step_answers hp h
  simp only [State.beginOperation_params, State.beginOperation_pending, State.beginOperation_out] at hparams hleft hout
  rw [invariant_iff, hparams, hleft, hout, wellBracketed_append hbracketed]
  exact ⟨hlawful, hrest, hnew.wellBracketed,
    List.forall_mem_append.2 ⟨hsound, step_outputs_sound hp h hrecs hout⟩⟩

theorem construct_invariant {p : Params} (h : p.lawful = true) : (State.construct p).invariant = true :=
  (invariant_iff _).2 ⟨h, by simp, rfl, by simp⟩

/-- Settles O56: a constructed block has sent nothing and no request is pending. -/
theorem resetMeetsTheInvariant : Obligations.ResetMeetsTheInvariant := by
  unfold Obligations.ResetMeetsTheInvariant
  exact ⟨construct_invariant (by decide), fun p => construct_invariant⟩

end Sys2Proof.Proofs
end

-- ==== The conversion of frames (44_conversion.md) ====
section
namespace Sys2Proof.Proofs
open Sys2Proof.Machine

/-! ### The stages of CONVERT, one after the other -/

/-- The declared length passes the check (R134). -/
def LengthPasses (p : Params) (words : List Word) : Prop :=
  p.lengthCheck = .requireEqual → (p.hdr.decode (words.take 6)).length = (words.drop 6).length

section Stages
variable {p : Params} {m : AcqMode} {words : List Word} {a b : Picos} {l : Latches}

theorem configuredUnpackStage_byte (payload : List Word) :
    configuredUnpackStage p m.byte payload = unpackStage p m payload := by
  funext l
  rw [configuredUnpackStage, AcqMode.ofByte?_byte]

/-- An accepted frame whose length passes the check reaches the unpacker. -/
theorem stages_to_unpack (h6 : 6 ≤ words.length) (hacc : acceptance (p.hdr.decode (words.take 6)) = .accepted)
    (hlen : LengthPasses p words) (l : Latches) : runStages (convertStages p m.byte words) l =
      runStages [unpackStage p m (words.drop 6), headerTimeStage p, hitStage p]
        { l with header := p.hdr.decode (words.take 6) } := by
  have hpass : lengthStop p.lengthCheck (words.drop 6) (p.hdr.decode (words.take 6)) = none :=
    (lengthStop_eq_none _ _ _).2 hlen
  rw [← configuredUnpackStage_byte]
  exact (stages_of_accepted h6 hacc _ _).trans (runStages_cons_none (length_passes hpass) _)

/-- Whole units at valid addresses reach the time base. -/
theorem stages_to_time (hwhole : (words.drop 6).length % p.unitWords m = 0)
    (hvalid : ∀ j, j < (words.drop 6).length / p.unitWords m → (rawUnit p m (words.drop 6) j).addr.valid = true)
    (rest : List Stage) : runStages (unpackStage p m (words.drop 6) :: rest) l =
      runStages rest { l with
        cursor := (words.drop 6).length / p.unitWords m, recs := unitRecords p m (words.drop 6) } :=
  runStages_cons_none (unpackStage_ok l hwhole hvalid) rest

/-- Frame times in range reach the hits. -/
theorem stages_to_hits {H : FrameHeader} {c : Nat} {recs : List PixelRecord}
    (ha : toPs p.tsOverflow H.shutterOpen = .ok a) (hb : toPs p.tsOverflow H.shutterClose = .ok b)
    (rest : List Stage) :
    runStages (headerTimeStage p :: rest) { l with header := H, cursor := c, recs := recs } =
      runStages rest { l with header := H, cursor := c, recs := recs, frameStartPs := a, frameEndPs := b } :=
  runStages_cons_none (time_passes (l := { l with header := H, cursor := c, recs := recs }) ha hb) rest

end Stages

/-! ### Frames that ACCEPT rejects -/

theorem exec_convert_rejected {s : State} {words : List Word} {k : Skip}
    (hwords : eventWords s.params.byteOrder s.port.ev = .ok words) (h6 : 6 ≤ words.length)
    (hstop : acceptStop (s.params.hdr.decode (words.take 6)) = some (.skip k)) :
    exec .convert s = .next { s with
      latches := { s.latches with header := s.params.hdr.decode (words.take 6) },
      out := s.out ++ [.diag k.diagnostic, .response (.skip k)] } :=
  execConvert_stops (x := .skip k) hwords ((runStages_cons_none (headerStage_ok h6 s.latches) _).trans
    (runStages_cons_some (by rw [checkStage_eq, hstop]) _))

/-- Settles O38: the second stage stops with the skip, and only the first has written a latch. -/
theorem convertSkipsRejectedFrames : Obligations.ConvertSkipsRejectedFrames := by
  unfold Obligations.ConvertSkipsRejectedFrames
  intro s bytes hb h4 h24
  obtain ⟨hwords, h6⟩ := eventWords_of_block (order := s.params.byteOrder) hb h4 h24
  refine ⟨fun ht0 => exec_convert_rejected (k := .notSynced _) hwords h6 ?_,
    fun ht0 hshutter => exec_convert_rejected (k := .shutterOrder _ _) hwords h6 ?_⟩
  · rw [acceptStop, acceptance_notSynced ht0]
  · rw [acceptStop, acceptance_shutterOrder ht0 hshutter]

/-! ### Accepted frames that end in a hard error -/

/-- An event whose frame the acceptance policy accepts. -/
structure AcceptedFrame (s : State) (words : List Word) : Prop where
  shape : eventWords s.params.byteOrder s.port.ev = .ok words
  enough : 6 ≤ words.length
  accepted : acceptance (s.params.hdr.decode (words.take 6)) = .accepted

/-- An accepted frame that FRAME unpacks under the configured mode. -/
structure UnpackedFrame (s : State) (words : List Word) (m : AcqMode) : Prop extends AcceptedFrame s words where
  length : LengthPasses s.params words
  mode : s.acqMode = m.byte
  whole : (words.drop 6).length % s.params.unitWords m = 0
  valid : ∀ j, j < (words.drop 6).length / s.params.unitWords m →
    (rawUnit s.params m (words.drop 6) j).addr.valid = true

theorem acceptedFrame_of_block {s : State} {bytes : List Byte} (hb : s.port.ev.blocks = [bytes])
    (h4 : bytes.length % 4 = 0) (h24 : 24 ≤ bytes.length)
    (ht0 : (s.params.hdr.decode ((assemble s.params.byteOrder bytes).take 6)).t0Flag = true)
    (hshutter : (s.params.hdr.decode ((assemble s.params.byteOrder bytes).take 6)).shutterOpen ≤
      (s.params.hdr.decode ((assemble s.params.byteOrder bytes).take 6)).shutterClose) :
    AcceptedFrame s (assemble s.params.byteOrder bytes) := by
  obtain ⟨hwords, h6⟩ := eventWords_of_block (order := s.params.byteOrder) hb h4 h24
  exact ⟨hwords, h6, (acceptance_eq_accepted _).2 ⟨ht0, hshutter⟩⟩

section Errors
variable {s : State} {words : List Word} {m : AcqMode} {e : HardError}

/-- CONVERT answers the hard error `e`: no event, no record, and only the latches change. -/
def ConvertFails (s : State) (e : HardError) : Prop :=
  ∃ l, exec .convert s = .next { s with latches := l, out := s.out ++ [.response (.error e)] }

theorem convertFails_of_stages (hf : AcceptedFrame s words)
    (h : ∃ l, runStages (convertStages s.params s.acqMode words) s.latches = (l, some (.hard e))) :
    ConvertFails s e := by
  obtain ⟨l, hl⟩ := h
  exact ⟨l, execConvert_stops hf.shape hl⟩

theorem stages_fail {stage : Stage} {rest : List Stage} {l : Latches}
    (h : ∃ l', stage l = (l', some (.hard e))) : ∃ l', runStages (stage :: rest) l = (l', some (.hard e)) := by
  obtain ⟨l', hl'⟩ := h
  exact ⟨l', runStages_cons_some hl' rest⟩

theorem hitStage_fails {p : Params} {before after : List PixelRecord} {x : PixelRecord} {l : Latches}
    (hkept : suppressZero l.recs = before ++ x :: after)
    (hbefore : ∀ y ∈ before, ∃ t, hitTime p.tsOverflow l.frameStartPs l.frameEndPs y = .ok t)
    (hx : hitTime p.tsOverflow l.frameStartPs l.frameEndPs x = .error e) :
    ∃ l', hitStage p l = (l', some (.hard e)) := by
  rw [hitStage, hkept]
  exact appendHits_error after hbefore hx

theorem convertFails_declaredLength (hf : AcceptedFrame s words) (hcheck : s.params.lengthCheck = .requireEqual)
    (hne : (s.params.hdr.decode (words.take 6)).length ≠ (words.drop 6).length) :
    ConvertFails s (.declaredLength (s.params.hdr.decode (words.take 6)).length (words.drop 6).length) := by
  have hstop : lengthStop s.params.lengthCheck (words.drop 6) (s.params.hdr.decode (words.take 6)) =
      some (.hard (.declaredLength (s.params.hdr.decode (words.take 6)).length (words.drop 6).length)) := by
    rw [hcheck, lengthStop, if_neg hne]
  refine convertFails_of_stages hf ?_
  rw [convertStages, stages_of_accepted hf.enough hf.accepted]
  exact stages_fail ⟨_, congrArg (Prod.mk _) hstop⟩

/-- The unpacker's error, which no latch decides. -/
theorem convertFails_unpack (hf : AcceptedFrame s words) (hlen : LengthPasses s.params words)
    (hmode : s.acqMode = m.byte)
    (h : ∀ l, ∃ l', unpackStage s.params m (words.drop 6) l = (l', some (.hard e))) : ConvertFails s e := by
  refine convertFails_of_stages hf ?_
  rw [hmode, stages_to_unpack hf.enough hf.accepted hlen]
  exact stages_fail (h _)

/-- The time base's error, for a frame that unpacks. -/
theorem convertFails_time (hf : UnpackedFrame s words m)
    (h : ∀ l, ∃ l', timeStage s.params (s.params.hdr.decode (words.take 6)) l = (l', some (.hard e))) :
    ConvertFails s e := by
  refine convertFails_of_stages hf.toAcceptedFrame ?_
  rw [hf.mode, stages_to_unpack hf.enough hf.accepted hf.length, stages_to_time hf.whole hf.valid]
  exact stages_fail (h _)

/-- The first record that has no time, for a frame whose time base is in range. -/
theorem convertFails_hit (hf : UnpackedFrame s words m) {a b : Picos}
    (ha : toPs s.params.tsOverflow (s.params.hdr.decode (words.take 6)).shutterOpen = .ok a)
    (hb : toPs s.params.tsOverflow (s.params.hdr.decode (words.take 6)).shutterClose = .ok b)
    {before after : List PixelRecord} {x : PixelRecord}
    (hkept : suppressZero (unitRecords s.params m (words.drop 6)) = before ++ x :: after)
    (hbefore : ∀ y ∈ before, ∃ t, hitTime s.params.tsOverflow a b y = .ok t)
    (hx : hitTime s.params.tsOverflow a b x = .error e) : ConvertFails s e := by
  refine convertFails_of_stages hf.toAcceptedFrame ?_
  rw [hf.mode, stages_to_unpack hf.enough hf.accepted hf.length, stages_to_time hf.whole hf.valid,
    stages_to_hits ha hb]
  exact stages_fail (hitStage_fails hkept hbefore hx)

end Errors

/-- Settles O41: the length check is the third stage, and the unpacker, which decides the other two, the fourth. -/
theorem convertReportsErrorsInOrder : Obligations.ConvertReportsErrorsInOrder := by
  unfold Obligations.ConvertReportsErrorsInOrder
  intro s bytes hb h4 h24 words H n ht0 hshutter
  have hf : AcceptedFrame s words := acceptedFrame_of_block hb h4 h24 ht0 hshutter
  refine ⟨convertFails_declaredLength hf, fun hlength => ?_⟩
  have hlen : LengthPasses s.params words := fun hcheck => by
    rcases hlength with hignore | heq
    · cases hcheck.symm.trans hignore
    · exact heq
  refine ⟨fun hmode => ?_, fun hmode hn => ?_, fun hmode hn => ?_⟩
  · exact exec_convert_unsupportedMode hb h4 h24 hf.accepted hlen hmode
  · exact convertFails_unpack (m := .totOnly) hf hlen hmode fun l => ⟨l, unpackStage_length_error l hn⟩
  · exact convertFails_unpack (m := .totToa) hf hlen hmode fun l => ⟨l, unpackStage_length_error l hn⟩

/-! ### Accepted frames that convert -/

/-- The latches a conversion leaves, given the hits and the frame times. -/
def frameLatches (p : Params) (m : AcqMode) (words : List Word) (hits : List Hit) (a b : Picos) : Latches :=
  ⟨p.hdr.decode (words.take 6), (words.drop 6).length / p.unitWords m, unitRecords p m (words.drop 6), hits, a, b⟩

/-- CONVERT emits one event, made of the given hits and frame times, and answers CONVERTED. -/
def ConvertEmits (s : State) (m : AcqMode) (words : List Word) (hits : List Hit) (a b : Picos) : Prop :=
  exec .convert s = .next { s with
    latches := frameLatches s.params m words hits a b,
    out := s.out ++ [.event (outEvent s.params s.planeId s.port.ev.tags (frameLatches s.params m words hits a b)),
      .response (.ok .converted)] }

section Emits
variable {s : State} {words : List Word} {m : AcqMode} {a b : Picos}

/-- An accepted frame whose every part is in range is converted, its hits those of the records left by the zero
suppression at their times. -/
theorem convertEmits_of_times {times : List Picos} (hf : UnpackedFrame s words m)
    (ha : toPs s.params.tsOverflow (s.params.hdr.decode (words.take 6)).shutterOpen = .ok a)
    (hb : toPs s.params.tsOverflow (s.params.hdr.decode (words.take 6)).shutterClose = .ok b)
    (htimes : List.Forall₂ (fun r t => hitTime s.params.tsOverflow a b r = .ok t)
      (suppressZero (unitRecords s.params m (words.drop 6))) times) :
    ConvertEmits s m words
      (((suppressZero (unitRecords s.params m (words.drop 6))).zip times).map fun x => hitEntry x.1 x.2) a b :=
  execConvert_converts hf.shape
    ⟨hf.enough, rfl, hf.accepted, hf.length, ⟨m, hf.mode, hf.whole, hf.valid, rfl, rfl⟩, ha, hb, times, htimes, rfl⟩

/-- The same where the records are given one by one, each of nonzero magnitude with its time. -/
theorem convertEmits_of_records {α : Type} {ks : List α} {f : α → PixelRecord} {T : α → Picos}
    (hf : UnpackedFrame s words m)
    (ha : toPs s.params.tsOverflow (s.params.hdr.decode (words.take 6)).shutterOpen = .ok a)
    (hb : toPs s.params.tsOverflow (s.params.hdr.decode (words.take 6)).shutterClose = .ok b)
    (hrecs : unitRecords s.params m (words.drop 6) = ks.map f)
    (hT : ∀ k ∈ ks, (f k).magnitude ≠ 0 → hitTime s.params.tsOverflow a b (f k) = .ok (T k)) :
    ConvertEmits s m words ((ks.filter fun k => (f k).magnitude ≠ 0).map fun k => hitEntry (f k) (T k)) a b := by
  obtain ⟨htimes, hhits⟩ := hits_of_map ks f T hT
  rw [← hrecs] at htimes hhits
  rw [← hhits]
  exact convertEmits_of_times hf ha hb htimes

end Emits

/-- Frame times made from ticks in range have an exact midpoint. -/
theorem midpoint_fault_ticks {opening closing : Nat} (ho : opening * 10000 < 2 ^ 64) (hc : closing * 10000 < 2 ^ 64) :
    midpoint .fault (BitVec.ofNat 64 (opening * 10000)) (BitVec.ofNat 64 (closing * 10000)) =
      BitVec.ofNat 64 ((opening + closing) * 5000) := by
  rw [Machine.midpoint, ofNat_ticks_toNat ho, ofNat_ticks_toNat hc]
  congr 1
  omega

/-- Settles O39: in mode 0x00 no time can fail, and each is the midpoint. -/
theorem convertConvertsTotFrames : Obligations.ConvertConvertsTotFrames := by
  unfold Obligations.ConvertConvertsTotFrames
  intro s bytes hb h4 h24 words H payload L unit addr tot ht0 hshutter hlen hmode hwhole hvalid hclose a b
  have hu : UnpackedFrame s words .totOnly :=
    ⟨acceptedFrame_of_block hb h4 h24 ht0 hshutter, hlen, hmode, hwhole,
      fun j hj => (PixelAddress.valid_iff _).2 (hvalid j hj)⟩
  have hopen : s.params.tsOverflow = .fault → H.shutterOpen * 10000 < 2 ^ 64 := fun hp =>
    Nat.lt_of_le_of_lt (Nat.mul_le_mul_right _ hshutter) (hclose hp)
  have hemits (t : Picos) (ht : midpoint s.params.tsOverflow a b = t) :=
    convertEmits_of_records (m := .totOnly) (ks := List.range (payload.length / L))
      (f := rawUnit s.params .totOnly payload) (T := fun _ => t) hu (toPs_ok hopen) (toPs_ok hclose) rfl
      fun _ _ _ => congrArg Except.ok ht
  cases hp : s.params.tsOverflow with
  | fault =>
    exact ⟨_, hemits (BitVec.ofNat 64 ((H.shutterOpen + H.shutterClose) * 5000))
      (by rw [hp]; exact midpoint_fault_ticks (hopen hp) (hclose hp))⟩
  | wrap64 =>
    exact ⟨_, hemits (BitVec.ofNat 64 ((a.toNat + b.toNat) % 2 ^ 64 / 2)) (by rw [hp]; rfl)⟩

/-- An arrival within the frame end has its exact time. -/
theorem hitFromEnd_fault_ticks {closing arrival : Nat} (hc : closing * 10000 < 2 ^ 64) (h : arrival ≤ closing) :
    hitFromEnd .fault (BitVec.ofNat 64 (closing * 10000)) arrival =
      .ok (BitVec.ofNat 64 (closing * 10000 - arrival * 10000)) := by
  rw [hitFromEnd_fault_ok (by rw [ofNat_ticks_toNat hc]; exact Nat.mul_le_mul_right _ h), ofNat_ticks_toNat hc]

/-- Settles O40: in mode 0x01 each record has its own time, and only those that the zero suppression keeps need one. -/
theorem convertConvertsToaFrames : Obligations.ConvertConvertsToaFrames := by
  unfold Obligations.ConvertConvertsToaFrames
  intro s bytes hb h4 h24 words H payload L unit addr tot arrival ht0 hshutter hlen hmode hwhole hvalid hclose harrival
    a b
  have hu : UnpackedFrame s words .totToa :=
    ⟨acceptedFrame_of_block hb h4 h24 ht0 hshutter, hlen, hmode, hwhole,
      fun j hj => (PixelAddress.valid_iff _).2 (hvalid j hj)⟩
  have hopen : s.params.tsOverflow = .fault → H.shutterOpen * 10000 < 2 ^ 64 := fun hp =>
    Nat.lt_of_le_of_lt (Nat.mul_le_mul_right _ hshutter) (hclose hp)
  have hemits (T : Nat → Picos) (hT : ∀ k, k < payload.length / L → tot k ≠ 0 →
      hitFromEnd s.params.tsOverflow b (arrival k) = .ok (T k)) :=
    convertEmits_of_records (m := .totToa) (ks := List.range (payload.length / L))
      (f := rawUnit s.params .totToa payload) (T := T) hu (toPs_ok hopen) (toPs_ok hclose) rfl
      fun k hk => hT k (List.mem_range.1 hk)
  cases hp : s.params.tsOverflow with
  | fault =>
    refine ⟨_, hemits (fun k => BitVec.ofNat 64 (H.shutterClose * 10000 - arrival k * 10000)) fun k hk htot => ?_⟩
    rw [hp]
    exact hitFromEnd_fault_ticks (hclose hp) (harrival hp k hk htot)
  | wrap64 =>
    refine ⟨_, hemits (fun k => b - BitVec.ofNat 64 (arrival k * 10000)) fun k _ _ => ?_⟩
    rw [hp]
    exact hitFromEnd_wrap64 b (arrival k)

/-! ### The caller flow -/

/-- The operation `i`, run on its own on the operands `ops`, sends the response `r` and nothing else. -/
def Sends (s : State) (i : Instr) (ops : Operands) (r : Response) : Prop :=
  ∃ t : State, exec i { s with port := ops } = .next t ∧ t.out = s.out ++ [.response r]

/-- TS_HIT of a record's mode, run on its own, sends `r`. -/
def HitSends (s : State) (a b : Picos) (x : PixelRecord) (r : Response) : Prop :=
  match x with
  | .tot _ _ => Sends s .tsHitTot { s.port with startPs := a, endPs := b } r
  | .toa _ _ arrival => Sends s .tsHitToa { s.port with endPs := b, arrival := arrival } r

section Flow
variable {s : State} {m : AcqMode} {o : Operands} {H : FrameHeader} {recs kept : List PixelRecord} {a b t : Picos}
  {e : HardError} {x : PixelRecord}

theorem header_of_sends (h : Sends s .hdr o (.ok (.header H))) :
    6 ≤ o.words.length ∧ H = s.params.hdr.decode (o.words.take 6) := by
  obtain ⟨u, hu, hout⟩ := h
  rcases hdr_responds hu hout with ⟨h6, heq⟩ | ⟨e, heq⟩
  · cases heq
    exact ⟨h6, rfl⟩
  · cases heq

theorem accepted_of_sends (h : Sends s .accept o (.ok (.verdict .accepted))) : acceptance o.h = .accepted := by
  obtain ⟨u, hu, hout⟩ := h
  cases hu.symm.trans exec_accept
  have heq := response_of_out hout
  simp only [Response.ok.injEq, Result.verdict.injEq] at heq
  exact heq.symm

theorem records_of_sends (h : Sends s (frameOf m) o (.ok (.records recs))) :
    o.payload.length % s.params.unitWords m = 0 ∧
      (∀ j, j < o.payload.length / s.params.unitWords m → (rawUnit s.params m o.payload j).addr.valid = true) ∧
      recs = unitRecords s.params m o.payload := by
  obtain ⟨u, hu, hout⟩ := h
  rcases frame_responds hu hout with ⟨hwhole, hvalid, heq⟩ | ⟨e, heq, -⟩
  · cases heq
    exact ⟨hwhole, hvalid, rfl⟩
  · cases heq

theorem unpackError_of_sends (h : Sends s (frameOf m) o (.error e)) (l : Latches) :
    ∃ l', unpackStage s.params m o.payload l = (l', some (.hard e)) := by
  obtain ⟨u, hu, hout⟩ := h
  rcases frame_responds hu hout with ⟨-, -, heq⟩ | ⟨e', heq, hl⟩
  · cases heq
  · cases heq
    exact hl l

theorem kept_of_sends (h : Sends s .filter o (.ok (.records kept))) : suppressZero o.recs = kept := by
  obtain ⟨u, hu, hout⟩ := h
  cases hu.symm.trans exec_filter
  have heq := response_of_out hout
  simp only [Response.ok.injEq, Result.records.injEq] at heq
  exact heq.symm

theorem times_of_sends (h : Sends s .tsFrame o (.ok (.frameTimes a b))) :
    toPs s.params.tsOverflow o.h.shutterOpen = .ok a ∧ toPs s.params.tsOverflow o.h.shutterClose = .ok b := by
  obtain ⟨u, hu, hout⟩ := h
  rcases tsFrame_responds hu hout with ⟨a', b', ha, hb, heq⟩ | ⟨e, heq, -⟩
  · cases heq
    exact ⟨ha, hb⟩
  · cases heq

theorem timeError_of_sends (h : Sends s .tsFrame o (.error e)) (l : Latches) :
    ∃ l', timeStage s.params o.h l = (l', some (.hard e)) := by
  obtain ⟨u, hu, hout⟩ := h
  rcases tsFrame_responds hu hout with ⟨a, b, -, -, heq⟩ | ⟨e', heq, hl⟩
  · cases heq
  · cases heq
    exact hl l

/-- TS_HIT of a record's mode answers the record's time or its error. -/
theorem hitTime_of_sends {r : Response} (h : HitSends s a b x r) :
    (∃ t, hitTime s.params.tsOverflow a b x = .ok t ∧ r = .ok (.timestamp t)) ∨
      ∃ e, hitTime s.params.tsOverflow a b x = .error e ∧ r = .error e := by
  cases x with
  | tot addr v =>
    obtain ⟨u, hu, hout⟩ := h
    cases hu.symm.trans exec_tsHitTot
    exact .inl ⟨_, rfl, response_of_out hout⟩
  | toa addr v arrival =>
    obtain ⟨u, hu, hout⟩ := h
    exact tsHitToa_responds hu hout

theorem hitTime_ok_of_sends (h : HitSends s a b x (.ok (.timestamp t))) :
    hitTime s.params.tsOverflow a b x = .ok t := by
  rcases hitTime_of_sends h with ⟨t', ht, heq⟩ | ⟨e, -, heq⟩
  · cases heq
    exact ht
  · cases heq

theorem hitTime_error_of_sends (h : HitSends s a b x (.error e)) :
    hitTime s.params.tsOverflow a b x = .error e := by
  rcases hitTime_of_sends h with ⟨t', -, heq⟩ | ⟨e', he, heq⟩
  · cases heq
  · cases heq
    exact he

/-- HDR and ACCEPT that answer OK on the words of an event are CONVERT's accepted frame. -/
theorem acceptedFrame_of_sends {bytes : List Byte} {tags : List Tag} (h4 : bytes.length % 4 = 0)
    (hhdr : Sends s .hdr { s.port with words := assemble s.params.byteOrder bytes } (.ok (.header H)))
    (haccept : Sends s .accept { s.port with h := H } (.ok (.verdict .accepted))) :
    H = s.params.hdr.decode ((assemble s.params.byteOrder bytes).take 6) ∧
      AcceptedFrame { s with port := { s.port with ev := ⟨[bytes], tags⟩ } } (assemble s.params.byteOrder bytes) := by
  obtain ⟨h6, rfl⟩ := header_of_sends hhdr
  exact ⟨rfl, eventWords_eq_ok.2 ⟨bytes, rfl, h4, h6, rfl⟩, h6, accepted_of_sends haccept⟩

end Flow

/-- Settles O42: what each operation of the flow answers is what the stage of CONVERT it stands for leaves. -/
theorem convertIsTheCallerFlow : Obligations.ConvertIsTheCallerFlow := by
  unfold Obligations.ConvertIsTheCallerFlow
  intro s m bytes tags H recs kept a b times o words answers hmode h4 hlen hhdr haccept hframe hfilter htimes hhits
  obtain ⟨rfl, hf⟩ := acceptedFrame_of_sends (tags := tags) h4 hhdr haccept
  have hframe : Sends s (frameOf m) { o with payload := words.drop 6 } (.ok (.records recs)) := by
    cases m <;> exact hframe
  obtain ⟨hwhole, hvalid, rfl⟩ := records_of_sends hframe
  obtain rfl := kept_of_sends hfilter
  obtain ⟨ha, hb⟩ := times_of_sends htimes
  have hT : List.Forall₂ (fun r t => hitTime s.params.tsOverflow a b r = .ok t)
      (suppressZero (unitRecords s.params m (words.drop 6))) times :=
    hhits.imp fun r t h => hitTime_ok_of_sends (by cases r <;> exact h)
  exact ⟨_, convertEmits_of_times ⟨hf, hlen, hmode, hwhole, hvalid⟩ ha hb hT⟩

/-- Settles O43: the stage that the failing operation stands for fails with the same error, and the stages before it
pass. -/
theorem convertStopsWhereTheCallerFlowStops : Obligations.ConvertStopsWhereTheCallerFlowStops := by
  unfold Obligations.ConvertStopsWhereTheCallerFlowStops
  intro s m bytes tags H e o words ends frame hit hmode h4 hlen hhdr haccept hfails
  obtain ⟨rfl, hf⟩ := acceptedFrame_of_sends (tags := tags) h4 hhdr haccept
  have hframe : frame = frameOf m := by cases m <;> rfl
  rw [hframe] at hfails
  rcases hfails with herror | ⟨recs, hrecs, herror⟩ |
    ⟨recs, before, x, after, a, b, hrecs, hfilter, htimes, hbefore, hx⟩
  · exact convertFails_unpack hf hlen hmode (unpackError_of_sends herror)
  · obtain ⟨hwhole, hvalid, -⟩ := records_of_sends hrecs
    have htime := timeError_of_sends (s := s) herror
    exact convertFails_time ⟨hf, hlen, hmode, hwhole, hvalid⟩ htime
  · obtain ⟨hwhole, hvalid, rfl⟩ := records_of_sends hrecs
    obtain ⟨ha, hb⟩ := times_of_sends htimes
    refine convertFails_hit ⟨hf, hlen, hmode, hwhole, hvalid⟩ ha hb (kept_of_sends hfilter) (fun y hy => ?_) ?_
    · obtain ⟨t, ht⟩ := hbefore y hy
      exact ⟨t, hitTime_ok_of_sends (s := s) (by cases y <;> exact ht)⟩
    · exact hitTime_error_of_sends (s := s) (by cases x <;> exact hx)

/-! ### What every emitted event keeps -/

theorem hitTime_tot {policy : TsOverflow} {a b t : Picos} {r : PixelRecord} (hr : r.acqMode = .totOnly)
    (h : hitTime policy a b r = .ok t) : t = Machine.midpoint policy a b := by
  cases r with
  | tot addr v => exact (Except.ok.inj h).symm
  | toa addr v arrival => cases hr

theorem hitTime_toa {policy : TsOverflow} {a b t : Picos} {r : PixelRecord} (hr : r.acqMode = .totToa)
    (h : hitTime policy a b r = .ok t) : ∃ arrival, hitFromEnd policy b arrival = .ok t := by
  cases r with
  | tot addr v => cases hr
  | toa addr v arrival => exact ⟨arrival, h⟩

/-- Settles O44: of the four ways an operation ends only a conversion sends an event, and each of its hits is the entry
of a record of the configured mode. -/
theorem emittedEventsKeepTheRules : Obligations.EmittedEventsKeepTheRules := by
  unfold Obligations.EmittedEventsKeepTheRules
  intro s t i ev tail h hout
  cases exec_ends h with
  | ok r l planeId acqMode state => subst state; cases List.append_cancel_left hout
  | hard e l state => subst state; cases List.append_cancel_left hout
  | skip k l instr state => subst state; cases List.append_cancel_left hout
  | converted words l instr shape converts state =>
    subst state
    cases List.append_cancel_left hout
    obtain ⟨m, hmode, hhits⟩ := converts.hits_spec
    refine ⟨instr, rfl, rfl, rfl, rfl, rfl, fun hit hh => (hhits hit hh).1,
      fun hp => ⟨fun hm hit hh => ?_, fun hm hit hh => ?_⟩⟩
    · obtain ⟨-, r, hr, htime⟩ := hhits hit hh
      have hm : m = .totOnly := by cases m with | totOnly => rfl | totToa => cases hmode.symm.trans hm
      rw [hitTime_tot (hr.trans hm) htime, hp]
      exact midpoint_fault_toNat _ _
    · obtain ⟨-, r, hr, htime⟩ := hhits hit hh
      have hm : m = .totToa := by cases m with | totOnly => cases hmode.symm.trans hm | totToa => rfl
      obtain ⟨arrival, harrival⟩ := hitTime_toa (hr.trans hm) htime
      rw [hp] at harrival
      exact ⟨arrival, hitFromEnd_fault_eq_ok harrival⟩

end Sys2Proof.Proofs
end

-- ==== From bytes to event (20_memory.md, 41_header.md, 42_frame.md, 44_conversion.md) ====
section
namespace Sys2Proof.Proofs
open Sys2Proof.Machine

/-! ### The words of an encoded frame -/

section Encoded
variable {p : Params} {m : AcqMode} {h : FrameHeader} {px : List (PixelAddress × Nat × Nat)}

/-- The words of a frame: the encoded header, then the encoded pixels. -/
def encodeFrame (p : Params) (m : AcqMode) (h : FrameHeader) (px : List (PixelAddress × Nat × Nat)) : List Word :=
  p.hdr.encode h ++ encodePixels p m px

theorem encodeFrame_take : (encodeFrame p m h px).take 6 = p.hdr.encode h :=
  List.take_left' (encode_length p.hdr h)

theorem encodeFrame_drop : (encodeFrame p m h px).drop 6 = encodePixels p m px :=
  List.drop_left' (encode_length p.hdr h)

theorem encodeFrame_length : 6 ≤ (encodeFrame p m h px).length := by
  rw [encodeFrame, List.length_append, encode_length]
  exact Nat.le_add_right 6 _

theorem eventWords_encodeFrame {order : ByteOrder} {ev : InEvent}
    (hb : ev.blocks = [blockOfWords order (encodeFrame p m h px)]) :
    eventWords order ev = .ok (encodeFrame p m h px) :=
  eventWords_eq_ok.2 ⟨_, hb, by rw [blockOfWords_length, Nat.mul_mod_right], encodeFrame_length,
    (assemble_blockOfWords order _).symm⟩

end Encoded

/-! ### The times of a mode's hits under `fault` -/

/-- The time of a hit, given the frame times and the arrival (R120, R121). -/
def pixelTime (m : AcqMode) (a b : Picos) (arrival : Nat) : Picos :=
  match m with
  | .totOnly => Machine.midpoint .fault a b
  | .totToa => BitVec.ofNat 64 (b.toNat - arrival * 10000)

theorem hitTime_record {m : AcqMode} {a b : Picos} {addr : PixelAddress} {tot arrival : Nat}
    (h : m = .totToa → arrival * 10000 ≤ b.toNat) :
    hitTime .fault a b (m.record addr tot arrival) = .ok (pixelTime m a b arrival) := by
  cases m with
  | totOnly => rfl
  | totToa => exact hitFromEnd_fault_ok (h rfl)

theorem pixelTime_totOnly_toNat {a b : Picos} {opening closing arrival : Nat} (ha : a.toNat = opening * 10000)
    (hb : b.toNat = closing * 10000) : (pixelTime .totOnly a b arrival).toNat = (opening + closing) * 5000 := by
  rw [pixelTime, midpoint_fault_toNat, ha, hb]
  omega

theorem pixelTime_totToa_toNat {a b : Picos} {closing arrival : Nat} (hb : b.toNat = closing * 10000) :
    (pixelTime .totToa a b arrival).toNat = (closing - arrival) * 10000 := by
  have hlt := b.isLt
  rw [pixelTime, BitVec.toNat_ofNat]
  omega

/-- A hit as the numbers it stands for. -/
def hitNumbers (hit : Hit) : Nat × Nat × Nat × Nat :=
  (hit.col.toNat, hit.row.toNat, hit.tot, hit.timestampPs.toNat)

theorem hitNumbers_hitEntry {r : PixelRecord} (h : r.addr.valid = true) (t : Picos) :
    hitNumbers (hitEntry r t) = (r.addr.col, r.addr.row, r.magnitude, t.toNat) := by
  obtain ⟨hcol, hrow⟩ := (PixelAddress.valid_iff _).1 h
  simp only [hitNumbers, hitEntry, BitVec.toNat_ofNat]
  rw [Nat.mod_eq_of_lt hcol, Nat.mod_eq_of_lt hrow]

/-- A fitting header of a lawful layout has a frame id of at most 64 bits. -/
theorem frameId_lt {p : Params} {h : FrameHeader} (hl : p.hdr.lawful = true) (hf : h.fits p = true) :
    h.frameId < 2 ^ 64 := by
  obtain ⟨-, -, -, hfid, -⟩ := (decodedHeaderFitsItsWidths p (p.hdr.encode h)).2 hl
  rwa [decode_encode hl hf] at hfid

/-- The hits of encodable pixels, as numbers. -/
theorem hitNumbers_of_pixels {p : Params} {m : AcqMode} {px : List (PixelAddress × Nat × Nat)}
    (hpx : Encodable p m px) (a b : Picos) :
    ((px.filter fun x => (m.record x.1 x.2.1 x.2.2).magnitude ≠ 0).map fun x =>
        hitEntry (m.record x.1 x.2.1 x.2.2) (pixelTime m a b x.2.2)).map hitNumbers =
      (px.filter fun x => x.2.1 ≠ 0).map fun x => (x.1.col, x.1.row, x.2.1, (pixelTime m a b x.2.2).toNat) := by
  simp only [AcqMode.record_magnitude, List.map_map]
  refine List.map_congr_left fun x hx => ?_
  obtain ⟨k, hk⟩ := List.getElem?_of_mem (List.mem_of_mem_filter hx)
  have hvalid : (m.record x.1 x.2.1 x.2.2).addr.valid = true := by
    rw [AcqMode.record_addr]
    obtain ⟨hfit, -⟩ := hpx k x hk
    obtain ⟨haddr, -⟩ := record_fits_spec hfit
    exact haddr
  rw [Function.comp_apply, hitNumbers_hitEntry hvalid, AcqMode.record_addr, AcqMode.record_magnitude]

/-- CONVERT of an encoded frame, with the event's frame times and its hits. -/
theorem convertEmits_of_encodeFrame {s : State} {m : AcqMode} {h : FrameHeader}
    {px : List (PixelAddress × Nat × Nat)} (hl : s.params.lawful = true) (hp : s.params.tsOverflow = .fault)
    (hmode : s.acqMode = m.byte)
    (hlength : s.params.lengthCheck = .requireEqual → h.length = px.length * s.params.unitWords m)
    (hfits : h.fits s.params = true) (ht0 : h.t0Flag = true) (hshutter : h.shutterOpen ≤ h.shutterClose)
    (hclose : h.shutterClose * 10000 < 2 ^ 64) (hpx : Encodable s.params m px)
    (harrival : m = .totToa → ∀ x ∈ px, x.2.1 ≠ 0 → x.2.2 ≤ h.shutterClose)
    (hb : s.port.ev.blocks = [blockOfWords s.params.byteOrder (encodeFrame s.params m h px)]) :
    ConvertEmits s m (encodeFrame s.params m h px)
      ((px.filter fun x => (m.record x.1 x.2.1 x.2.2).magnitude ≠ 0).map fun x =>
        hitEntry (m.record x.1 x.2.1 x.2.2)
          (pixelTime m (BitVec.ofNat 64 (h.shutterOpen * 10000)) (BitVec.ofNat 64 (h.shutterClose * 10000)) x.2.2))
      (BitVec.ofNat 64 (h.shutterOpen * 10000)) (BitVec.ofNat 64 (h.shutterClose * 10000)) := by
  have hheader : s.params.hdr.decode ((encodeFrame s.params m h px).take 6) = h := by
    rw [encodeFrame_take, decode_encode (lawful_hdr hl) hfits]
  have hunit := lawful_unit hl m
  have hopen : h.shutterOpen * 10000 < 2 ^ 64 := Nat.lt_of_le_of_lt (Nat.mul_le_mul_right _ hshutter) hclose
  have hf : AcceptedFrame s (encodeFrame s.params m h px) :=
    ⟨eventWords_encodeFrame hb, encodeFrame_length, by rw [hheader, acceptance_eq_accepted]; exact ⟨ht0, hshutter⟩⟩
  have hu : UnpackedFrame s (encodeFrame s.params m h px) m := by
    refine ⟨hf, ?length, hmode, ?whole, ?valid⟩
    case length => rw [LengthPasses, hheader, encodeFrame_drop, encodePixels_length]; exact hlength
    case whole => rw [encodeFrame_drop, encodePixels_whole]
    case valid => rw [encodeFrame_drop, encodePixels_units hunit]; exact fun j => encodePixels_valid hunit hpx
  refine convertEmits_of_records hu ?start ?stop ?records fun x hx h0 => ?time
  case start => rw [hheader]; exact toPs_ok fun _ => hopen
  case stop => rw [hheader]; exact toPs_ok fun _ => hclose
  case records => rw [encodeFrame_drop]; exact unitRecords_encodePixels hunit hpx
  case time =>
    rw [AcqMode.record_magnitude] at h0
    rw [hp]
    refine hitTime_record fun hm => ?_
    rw [ofNat_ticks_toNat hclose]
    exact Nat.mul_le_mul_right _ (harrival hm x hx h0)

/-- Settles O45: the block's words are the encoded header and units, which decode to the header and the pixels, and
every time is in range. -/
theorem encodedFramesConvertToTheirPixels : Obligations.EncodedFramesConvertToTheirPixels := by
  unfold Obligations.EncodedFramesConvertToTheirPixels
  intro s m h px hl hp hmode hlength hfits ht0 hshutter hclose hpx hb
  have hencodable : Encodable s.params m px := fun k x hx => by
    obtain ⟨hfit, hstores, -⟩ := hpx k x hx
    exact ⟨hfit, hstores⟩
  have harrival (hm : m = .totToa) (x) (hx : x ∈ px) : x.2.1 ≠ 0 → x.2.2 ≤ h.shutterClose := by
    obtain ⟨k, hk⟩ := List.getElem?_of_mem hx
    obtain ⟨-, -, hwithin⟩ := hpx k x hk
    exact hwithin hm
  have hemits := convertEmits_of_encodeFrame hl hp hmode hlength hfits ht0 hshutter hclose hencodable harrival hb
  have hstart := ofNat_ticks_toNat (Nat.lt_of_le_of_lt (Nat.mul_le_mul_right _ hshutter) hclose)
  have hend := ofNat_ticks_toNat hclose
  refine ⟨_, _, hemits, hstart, hend, ?_, (hitNumbers_of_pixels hencodable _ _).trans ?_⟩
  · simp only [outEvent, frameLatches, encodeFrame_take, decode_encode (lawful_hdr hl) hfits, BitVec.toNat_ofNat]
    exact Nat.mod_eq_of_lt (frameId_lt (lawful_hdr hl) hfits)
  · cases m with
    | totOnly => simp only [pixelTime_totOnly_toNat hstart hend]
    | totToa => simp only [pixelTime_totToa_toNat hend]

end Sys2Proof.Proofs
end

-- ==== Runs and instances (70_reset_and_hazards.md) ====
section
namespace Sys2Proof.Proofs
open Sys2Proof.Machine

/-! ### Runs of one instance -/

theorem ended_iff (s : State) : s.ended = true ↔ s.pending = [] ∧ s.unanswered = [] := by
  rw [State.ended, Bool.and_eq_true, List.isEmpty_iff, List.isEmpty_iff]

/-- Settles O50: a reset drops the pending requests to the unanswered ones, so it ends no run. -/
theorem liveResetKeepsEmittedOutputs : Obligations.LiveResetKeepsEmittedOutputs := by
  unfold Obligations.LiveResetKeepsEmittedOutputs
  refine fun s => ⟨rfl, rfl, rfl, rfl, rfl, rfl, rfl, ?_⟩
  rw [ended_iff, ended_iff, State.applyReset_pending, State.applyReset_unanswered, List.append_eq_nil_iff]
  exact ⟨fun ⟨_, hunanswered, hpending⟩ => ⟨hpending, hunanswered⟩, fun ⟨hp, hu⟩ => ⟨rfl, hu, hp⟩⟩

/-- The outputs of one operation hold one response. -/
theorem OperationOutputs.one_response {new : List Output} (h : OperationOutputs new) (s : State) :
    ({ s with out := new } : State).responses.length = 1 := by
  cases h <;> rfl

/-- In `t` all the requests that were pending in `s` have been answered, in order after the earlier ones. -/
structure AllAnswered (s t : State) : Prop where
  pending : t.pending = []
  unanswered : t.unanswered = s.unanswered
  responses : ∃ new, t.responses = s.responses ++ new ∧ new.length = s.pending.length

theorem AllAnswered.ended_iff {s t : State} (h : AllAnswered s t) : t.ended = true ↔ s.unanswered = [] := by
  rw [Proofs.ended_iff, h.pending, h.unanswered]
  simp

theorem advance_idle {s : State} (h : s.pending = []) : s.advance = s :=
  Host.Outcome.next.inj ((step_advance s).symm.trans (step_of_idle h))

/-- At least as many steps as requests are pending answer them all. -/
theorem allAnswered_iterate {k : Nat} {s : State} (h : s.pending.length ≤ k) :
    AllAnswered s (State.advance^[k] s) := by
  induction k generalizing s with
  | zero =>
    have hp := List.eq_nil_of_length_eq_zero (Nat.le_zero.1 h)
    exact ⟨hp, rfl, [], by simp, by simp [hp]⟩
  | succ k ih =>
    rw [Function.iterate_succ_apply]
    rcases hp : s.pending with _ | ⟨r, rest⟩
    · rw [advance_idle hp]
      exact ih (by simp [hp])
    · obtain ⟨-, hpending, hunanswered, out, hout, houtEq⟩ := step_answers hp (step_advance s)
      rw [State.beginOperation_pending] at hpending
      rw [State.beginOperation_unanswered] at hunanswered
      rw [State.beginOperation_out] at houtEq
      have hlen : s.pending.length = rest.length + 1 := by rw [hp, List.length_cons]
      obtain ⟨hdone, hkept, new, hnew, hcount⟩ := ih (s := s.advance) (by rw [hpending]; omega)
      refine ⟨hdone, hkept.trans hunanswered, ({ s with out := out } : State).responses ++ new, ?_, ?_⟩
      · rw [hnew, responses_of_out houtEq, List.append_assoc]
      · rw [List.length_append, hout.one_response s, hcount, hpending, hlen, Nat.add_comm]

theorem runSteps_eq_iterate (n : Nat) (s : State) : runSteps n s = .next (State.advance^[n] s) := by
  induction n generalizing s with
  | zero => rfl
  | succ n ih => rw [runSteps_of_step (step_advance s), ih, Function.iterate_succ_apply]

/-- Settles O52. -/
theorem runsEndWithEveryResponse : Obligations.RunsEndWithEveryResponse := by
  unfold Obligations.RunsEndWithEveryResponse
  intro s
  have hall := allAnswered_iterate (Nat.le_refl s.pending.length)
  obtain ⟨new, hnew, hlen⟩ := hall.responses
  exact ⟨_, new, runSteps_eq_iterate _ s, hall.pending, hall.ended_iff, hnew, hlen⟩

/-! ### Moves on several instances -/

/-- Settles O54: each instance's own moves, in their order, fix what it becomes. -/
theorem interleavingIsNotObserved : Obligations.InterleavingIsNotObserved := by
  unfold Obligations.InterleavingIsNotObserved
  intro sys moves moves' htargets hsame
  obtain ⟨t, ht, hget⟩ := System.moves_eq moves sys fun m hm => htargets m (List.mem_append_left _ hm)
  obtain ⟨t', ht', hget'⟩ := System.moves_eq moves' sys fun m hm => htargets m (List.mem_append_right _ hm)
  have heq : t.instances = t'.instances := List.ext_getElem? fun n => by rw [hget, hget', hsame]
  obtain ⟨instances⟩ := t
  obtain ⟨instances'⟩ := t'
  cases heq
  exact ⟨_, ht, ht'⟩

/-- Settles O59: the two orders have the same moves on each instance, one at most. -/
theorem instancesDoNotInteract : Obligations.InstancesDoNotInteract := by
  unfold Obligations.InstancesDoNotInteract
  intro sys m m' n n' hm hm' hne
  refine interleavingIsNotObserved sys [m, m'] [m', m] (by simp [hm, hm']) fun k => ?_
  simp only [List.filter_cons, List.filter_nil, hm, hm']
  by_cases hk : n = k
  · have hk' : n' ≠ k := fun hk' => hne (hk.trans hk'.symm)
    simp [hk, hk']
  · simp [hk]

/-- Settles O58. -/
theorem movesTouchOnlyTheirInstance : Obligations.MovesTouchOnlyTheirInstance := by
  unfold Obligations.MovesTouchOnlyTheirInstance
  intro sys sys' m n h hn htarget
  rcases hm : m.target with _ | k
  · cases m with
    | construct p =>
      cases h
      exact List.getElem?_append_left hn
    | _ => cases hm
  · have hkn : k ≠ n := fun heq => htarget (by rw [hm, heq])
    cases h.symm.trans (sys.move_eq hm)
    simp [hkn]

/-! ### Turns of several instances -/

theorem target_run (n : Nat) : (Move.run n).target = some n := rfl

/-- An instance's own moves, where every move is a turn, are its steps. -/
theorem turns_foldl (n : Nat) (turns : List Nat) (s : State) :
    ((turns.map Move.run).filter fun m => m.target == some n).foldl (fun s m => m.act s) s =
      State.advance^[turns.count n] s := by
  induction turns generalizing s with
  | nil => rfl
  | cons k turns ih =>
    by_cases hk : k = n
    · subst hk
      rw [List.map_cons, List.filter_cons_of_pos (by simp [target_run]), List.foldl_cons, ih, List.count_cons_self,
        Function.iterate_succ_apply, Move.act_run]
    · rw [List.map_cons, List.filter_cons_of_neg (by simp [target_run, hk]), ih, List.count_cons_of_ne hk]

/-- The instances after turns: each has made as many steps as it had turns. -/
def afterTurns (sys : System) (turns : List Nat) : System :=
  ⟨sys.instances.mapIdx fun n s => State.advance^[turns.count n] s⟩

theorem afterTurns_getElem? (sys : System) (turns : List Nat) (n : Nat) :
    (afterTurns sys turns).instances[n]? = (sys.instances[n]?).map (State.advance^[turns.count n]) :=
  List.getElem?_mapIdx

theorem moves_turns (sys : System) (turns : List Nat) :
    sys.moves (turns.map Move.run) = .next (afterTurns sys turns) := by
  obtain ⟨t, ht, hget⟩ := System.moves_eq (turns.map Move.run) sys (by simp [target_run])
  have heq : t.instances = (afterTurns sys turns).instances := List.ext_getElem? fun n => by
    rw [hget, afterTurns_getElem?, funext (turns_foldl n turns)]
  obtain ⟨instances⟩ := t
  obtain rfl : instances = _ := heq
  exact ht

section Turns
variable {sys : System} {turns : List Nat}
  (hturns : ∀ (n : Nat) (s : State), sys.instances[n]? = some s → s.pending.length ≤ turns.count n)
include hturns

/-- Enough turns answer all that was pending in every instance. -/
theorem allAnswered_afterTurns {n : Nat} {s : State} (hs : sys.instances[n]? = some s) :
    ∃ t, (afterTurns sys turns).instances[n]? = some t ∧ AllAnswered s t :=
  ⟨_, by rw [afterTurns_getElem?, hs, Option.map_some], allAnswered_iterate (hturns n s hs)⟩

theorem ended_afterTurns : (afterTurns sys turns).ended = true ↔ ∀ s ∈ sys.instances, s.unanswered = [] := by
  rw [System.ended, List.all_eq_true]
  constructor
  · intro h s hs
    obtain ⟨n, hn⟩ := List.getElem?_of_mem hs
    obtain ⟨t, ht, hall⟩ := allAnswered_afterTurns hturns hn
    exact hall.ended_iff.1 (h t (List.mem_of_getElem? ht))
  · intro h t ht
    obtain ⟨n, hn⟩ := List.getElem?_of_mem ht
    rw [afterTurns_getElem?] at hn
    obtain ⟨s, hs, rfl⟩ := Option.map_eq_some_iff.1 hn
    exact (allAnswered_iterate (hturns n s hs)).ended_iff.2 (h s (List.mem_of_getElem? hs))

/-- A run from no instance that enough turns complete is observed instance by instance. -/
theorem runObservation_turns {moves : List Move} (hmoves : System.empty.moves moves = .next sys)
    (hne : sys.instances ≠ []) (hanswered : ∀ s ∈ sys.instances, s.unanswered = []) :
    runObservation (moves ++ turns.map Move.run) = some (afterTurns sys turns).observation := by
  have hsome : (afterTurns sys turns).instances.isEmpty = false := by
    simpa [afterTurns] using hne
  simp only [runObservation, System.moves_append hmoves, moves_turns, (ended_afterTurns hturns).2 hanswered, hsome]
  rfl

end Turns

/-- Settles O53: an instance's steps are its turns, whatever turns of others stand between them. -/
theorem systemRunsEndWithEveryResponse : Obligations.SystemRunsEndWithEveryResponse := by
  unfold Obligations.SystemRunsEndWithEveryResponse
  intro sys turns hturns
  refine ⟨afterTurns sys turns, moves_turns sys turns, List.length_mapIdx, fun n s hs => ?_, ended_afterTurns hturns,
    fun moves => runObservation_turns hturns⟩
  obtain ⟨t, ht, hall⟩ := allAnswered_afterTurns hturns hs
  obtain ⟨new, hnew, hlen⟩ := hall.responses
  exact ⟨t, new, ht, hall.pending, hnew, hlen⟩

end Sys2Proof.Proofs
end
